-- ==== Sys2Proof/Word.lean ====
section
/-! DEFINITION. The word types of the engine (spec/00_scope.md R4, R5; spec/10_state.md R20, R24). -/

namespace Sys2Proof

/-- An 8-bit value: a general register, a timer, a byte of memory (R20, R28). -/
abbrev Byte := BitVec 8

/-- A 16-bit value: an instruction word, `I`, `PC`, a stack entry (R23, R24, R25, R90). -/
abbrev Word := BitVec 16

/-- A 12-bit address or constant, the field `nnn` (R91). -/
abbrev Addr := BitVec 12

/-- A 4-bit value, the field `n` of Dxyn (R91). -/
abbrev Nibble := BitVec 4

/-- A general register index, the fields `x` and `y`: always in range (R20). -/
abbrev Reg := Fin 16

/-- The flag register VF, register 15 (R22). -/
abbrev VF : Reg := 15

end Sys2Proof
end

