-- ==== Sys2Proof/Syntax.lean ====
section
/-! DEFINITION. The 34 instructions, one constructor per row of spec/opcode_table.json in the table's order
(spec/30_encoding.md R95). Operand types are the fields of R91, so every term's operands are in range. -/

namespace Sys2Proof

/-- An instruction with its operands (R91, R95). -/
inductive Instr where
  /-- 00E0 `CLS` (R197). -/
  | cls
  /-- 00EE `RET` (R140). -/
  | ret
  /-- 1nnn `JP nnn` (R141). -/
  | jp (nnn : Addr)
  /-- 2nnn `CALL nnn` (R142). -/
  | call (nnn : Addr)
  /-- 3xkk `SE Vx, kk` (R150). -/
  | seImm (x : Reg) (kk : Byte)
  /-- 4xkk `SNE Vx, kk` (R151). -/
  | sneImm (x : Reg) (kk : Byte)
  /-- 5xy0 `SE Vx, Vy` (R152). -/
  | seReg (x y : Reg)
  /-- 6xkk `LD Vx, kk` (R161). -/
  | ldImm (x : Reg) (kk : Byte)
  /-- 7xkk `ADD Vx, kk` (R162). -/
  | addImm (x : Reg) (kk : Byte)
  /-- 8xy0 `LD Vx, Vy` (R163). -/
  | ldReg (x y : Reg)
  /-- 8xy1 `OR Vx, Vy` (R164). -/
  | orReg (x y : Reg)
  /-- 8xy2 `AND Vx, Vy` (R165). -/
  | andReg (x y : Reg)
  /-- 8xy3 `XOR Vx, Vy` (R166). -/
  | xorReg (x y : Reg)
  /-- 8xy4 `ADD Vx, Vy` (R167). -/
  | addReg (x y : Reg)
  /-- 8xy5 `SUB Vx, Vy` (R168). -/
  | subReg (x y : Reg)
  /-- 8xy6 `SHR Vx`; `y` is kept because the word has it, and is read by nothing (R98, R169). -/
  | shr (x y : Reg)
  /-- 8xy7 `SUBN Vx, Vy` (R170). -/
  | subnReg (x y : Reg)
  /-- 8xyE `SHL Vx`; `y` as in `shr` (R98, R171). -/
  | shl (x y : Reg)
  /-- 9xy0 `SNE Vx, Vy` (R153). -/
  | sneReg (x y : Reg)
  /-- Annn `LD I, nnn` (R180). -/
  | ldI (nnn : Addr)
  /-- Bnnn `JP V0, nnn` (R143). -/
  | jpV0 (nnn : Addr)
  /-- Cxkk `RND Vx, kk` (R190). -/
  | rnd (x : Reg) (kk : Byte)
  /-- Dxyn `DRW Vx, Vy, n` (R198). -/
  | drw (x y : Reg) (n : Nibble)
  /-- Ex9E `SKP Vx` (R211). -/
  | skp (x : Reg)
  /-- ExA1 `SKNP Vx` (R212). -/
  | sknp (x : Reg)
  /-- Fx07 `LD Vx, DT` (R220). -/
  | ldVxDT (x : Reg)
  /-- Fx0A `LD Vx, K` (R213). -/
  | ldVxK (x : Reg)
  /-- Fx15 `LD DT, Vx` (R221). -/
  | ldDT (x : Reg)
  /-- Fx18 `LD ST, Vx` (R222). -/
  | ldST (x : Reg)
  /-- Fx1E `ADD I, Vx` (R181). -/
  | addI (x : Reg)
  /-- Fx29 `LD F, Vx` (R182). -/
  | ldF (x : Reg)
  /-- Fx33 `LD B, Vx` (R230). -/
  | ldB (x : Reg)
  /-- Fx55 `LD [I], Vx` (R231). -/
  | stRegs (x : Reg)
  /-- Fx65 `LD Vx, [I]` (R232). -/
  | ldRegs (x : Reg)
  deriving DecidableEq, Repr

end Sys2Proof
end

