-- ==== Sys2Proof/WellFormed.lean ====
section
/-! DEFINITION. What is a legal instruction word: the mask and match columns of the opcode map (spec/30_encoding.md R95, R96).
An `Instr` needs no check of its own, since each operand's type is exactly its field; what can be ill-formed is a WORD, and the
opcode map, written here from the spec's table and not from the decoder, says which words are. -/

namespace Sys2Proof

/-- A row of the opcode map: a word `w` is this instruction exactly when `w and mask = pattern` (R95). -/
structure Row where
  mask : Word
  pattern : Word
  deriving DecidableEq, Repr

/-- The row of the opcode map that a constructor stands for (R95). -/
def Instr.row : Instr → Row
  | .cls        => ⟨0xFFFF, 0x00E0⟩
  | .ret        => ⟨0xFFFF, 0x00EE⟩
  | .jp _       => ⟨0xF000, 0x1000⟩
  | .call _     => ⟨0xF000, 0x2000⟩
  | .seImm _ _  => ⟨0xF000, 0x3000⟩
  | .sneImm _ _ => ⟨0xF000, 0x4000⟩
  | .seReg _ _  => ⟨0xF00F, 0x5000⟩
  | .ldImm _ _  => ⟨0xF000, 0x6000⟩
  | .addImm _ _ => ⟨0xF000, 0x7000⟩
  | .ldReg _ _  => ⟨0xF00F, 0x8000⟩
  | .orReg _ _  => ⟨0xF00F, 0x8001⟩
  | .andReg _ _ => ⟨0xF00F, 0x8002⟩
  | .xorReg _ _ => ⟨0xF00F, 0x8003⟩
  | .addReg _ _ => ⟨0xF00F, 0x8004⟩
  | .subReg _ _ => ⟨0xF00F, 0x8005⟩
  | .shr _ _    => ⟨0xF00F, 0x8006⟩
  | .subnReg _ _ => ⟨0xF00F, 0x8007⟩
  | .shl _ _    => ⟨0xF00F, 0x800E⟩
  | .sneReg _ _ => ⟨0xF00F, 0x9000⟩
  | .ldI _      => ⟨0xF000, 0xA000⟩
  | .jpV0 _     => ⟨0xF000, 0xB000⟩
  | .rnd _ _    => ⟨0xF000, 0xC000⟩
  | .drw _ _ _  => ⟨0xF000, 0xD000⟩
  | .skp _      => ⟨0xF0FF, 0xE09E⟩
  | .sknp _     => ⟨0xF0FF, 0xE0A1⟩
  | .ldVxDT _   => ⟨0xF0FF, 0xF007⟩
  | .ldVxK _    => ⟨0xF0FF, 0xF00A⟩
  | .ldDT _     => ⟨0xF0FF, 0xF015⟩
  | .ldST _     => ⟨0xF0FF, 0xF018⟩
  | .addI _     => ⟨0xF0FF, 0xF01E⟩
  | .ldF _      => ⟨0xF0FF, 0xF029⟩
  | .ldB _      => ⟨0xF0FF, 0xF033⟩
  | .stRegs _   => ⟨0xF0FF, 0xF055⟩
  | .ldRegs _   => ⟨0xF0FF, 0xF065⟩

/-- The 34 rows of the opcode map, in its order (R95). -/
def opcodeMap : List Row :=
  [⟨0xFFFF, 0x00E0⟩, ⟨0xFFFF, 0x00EE⟩, ⟨0xF000, 0x1000⟩, ⟨0xF000, 0x2000⟩, ⟨0xF000, 0x3000⟩, ⟨0xF000, 0x4000⟩,
   ⟨0xF00F, 0x5000⟩, ⟨0xF000, 0x6000⟩, ⟨0xF000, 0x7000⟩, ⟨0xF00F, 0x8000⟩, ⟨0xF00F, 0x8001⟩, ⟨0xF00F, 0x8002⟩,
   ⟨0xF00F, 0x8003⟩, ⟨0xF00F, 0x8004⟩, ⟨0xF00F, 0x8005⟩, ⟨0xF00F, 0x8006⟩, ⟨0xF00F, 0x8007⟩, ⟨0xF00F, 0x800E⟩,
   ⟨0xF00F, 0x9000⟩, ⟨0xF000, 0xA000⟩, ⟨0xF000, 0xB000⟩, ⟨0xF000, 0xC000⟩, ⟨0xF000, 0xD000⟩] ++
  [⟨0xF0FF, 0xE09E⟩, ⟨0xF0FF, 0xE0A1⟩, ⟨0xF0FF, 0xF007⟩, ⟨0xF0FF, 0xF00A⟩, ⟨0xF0FF, 0xF015⟩, ⟨0xF0FF, 0xF018⟩,
   ⟨0xF0FF, 0xF01E⟩, ⟨0xF0FF, 0xF029⟩, ⟨0xF0FF, 0xF033⟩, ⟨0xF0FF, 0xF055⟩, ⟨0xF0FF, 0xF065⟩]

/-- A word matches a row (R95). -/
def Row.matches (r : Row) (w : Word) : Bool := w &&& r.mask == r.pattern

/-- A well-formed word is one that some row of the opcode map matches; every other word is illegal (R96). -/
def wellFormedWord (w : Word) : Bool := opcodeMap.any (Row.matches · w)

end Sys2Proof
end

