-- ==== Sys2Proof/Decode.lean ====
section
/-! DEFINITION. The decoder (spec/30_encoding.md R90 to R100), total on words and on byte lists, and after it the encoder. -/

namespace Sys2Proof

/-- Why a sequence of bytes is no instruction. -/
inductive DecodeError where
  /-- The word matches no row of the opcode map (R96). -/
  | unknownOpcode (word : Word)
  /-- Fewer than the two bytes every instruction has (R90). -/
  | truncated
  deriving DecidableEq, Repr

/-- `fam = instr[15:12]` (R91). -/
def famField (w : Word) : Nibble := w.extractLsb' 12 4
/-- `x = instr[11:8]` (R91). -/
def xField (w : Word) : Reg := (w.extractLsb' 8 4).toFin
/-- `y = instr[7:4]` (R91). -/
def yField (w : Word) : Reg := (w.extractLsb' 4 4).toFin
/-- `n = instr[3:0]` (R91). -/
def nField (w : Word) : Nibble := w.extractLsb' 0 4
/-- `kk = instr[7:0]` (R91). -/
def kkField (w : Word) : Byte := w.extractLsb' 0 8
/-- `nnn = instr[11:0]` (R91). -/
def nnnField (w : Word) : Addr := w.extractLsb' 0 12

/-- Family 0: two complete 16-bit patterns (R94). -/
def decodeFamily0 (w : Word) : Except DecodeError Instr :=
  if w = 0x00E0 then .ok .cls
  else if w = 0x00EE then .ok .ret
  else .error (.unknownOpcode w)

/-- Families 5 and 9: the low nibble must be 0 (R94). -/
def decodeLow0 (mk : Reg → Reg → Instr) (w : Word) : Except DecodeError Instr :=
  if nField w = 0 then .ok (mk (xField w) (yField w)) else .error (.unknownOpcode w)

/-- Family 8: the low nibble is the operation (R94). -/
def decodeFamily8 (w : Word) : Except DecodeError Instr :=
  match (nField w).toNat with
  | 0x0 => .ok (.ldReg (xField w) (yField w))
  | 0x1 => .ok (.orReg (xField w) (yField w))
  | 0x2 => .ok (.andReg (xField w) (yField w))
  | 0x3 => .ok (.xorReg (xField w) (yField w))
  | 0x4 => .ok (.addReg (xField w) (yField w))
  | 0x5 => .ok (.subReg (xField w) (yField w))
  | 0x6 => .ok (.shr (xField w) (yField w))
  | 0x7 => .ok (.subnReg (xField w) (yField w))
  | 0xE => .ok (.shl (xField w) (yField w))
  | _ => .error (.unknownOpcode w)

/-- Family E: the low byte is the operation (R94). -/
def decodeFamilyE (w : Word) : Except DecodeError Instr :=
  match (kkField w).toNat with
  | 0x9E => .ok (.skp (xField w))
  | 0xA1 => .ok (.sknp (xField w))
  | _ => .error (.unknownOpcode w)

/-- Family F: the low byte is the operation (R94). -/
def decodeFamilyF (w : Word) : Except DecodeError Instr :=
  match (kkField w).toNat with
  | 0x07 => .ok (.ldVxDT (xField w))
  | 0x0A => .ok (.ldVxK (xField w))
  | 0x15 => .ok (.ldDT (xField w))
  | 0x18 => .ok (.ldST (xField w))
  | 0x1E => .ok (.addI (xField w))
  | 0x29 => .ok (.ldF (xField w))
  | 0x33 => .ok (.ldB (xField w))
  | 0x55 => .ok (.stRegs (xField w))
  | 0x65 => .ok (.ldRegs (xField w))
  | _ => .error (.unknownOpcode w)

/-- The dispatch of R94, a function of the word alone (R100). The last arm is unreachable: `fam` has 4 bits. -/
def decode (w : Word) : Except DecodeError Instr :=
  match (famField w).toNat with
  | 0x0 => decodeFamily0 w
  | 0x1 => .ok (.jp (nnnField w))
  | 0x2 => .ok (.call (nnnField w))
  | 0x3 => .ok (.seImm (xField w) (kkField w))
  | 0x4 => .ok (.sneImm (xField w) (kkField w))
  | 0x5 => decodeLow0 .seReg w
  | 0x6 => .ok (.ldImm (xField w) (kkField w))
  | 0x7 => .ok (.addImm (xField w) (kkField w))
  | 0x8 => decodeFamily8 w
  | 0x9 => decodeLow0 .sneReg w
  | 0xA => .ok (.ldI (nnnField w))
  | 0xB => .ok (.jpV0 (nnnField w))
  | 0xC => .ok (.rnd (xField w) (kkField w))
  | 0xD => .ok (.drw (xField w) (yField w) (nField w))
  | 0xE => decodeFamilyE w
  | 0xF => decodeFamilyF w
  | _ => .error (.unknownOpcode w)

/-- The big-endian word of two bytes: the byte at the lower address is `instr[15:8]` (R63, R90). -/
def wordOfBytes (hi lo : Byte) : Word := hi ++ lo

/-- The two bytes of a word in the order memory holds them (R63). -/
def bytesOfWord (w : Word) : List Byte := [w.extractLsb' 8 8, w.extractLsb' 0 8]

/-- One instruction from the front of a byte sequence, with the bytes after it (R90). -/
def decodeBytes : List Byte → Except DecodeError (Instr × List Byte)
  | hi :: lo :: rest =>
    match decode (wordOfBytes hi lo) with
    | .ok i => .ok (i, rest)
    | .error e => .error e
  | _ => .error .truncated

/-- The instruction the decoder reads from a word given as the opcode table numbers its bits: one 16-bit word, laid out
big-endian (R63); bits at and above `nbits` are 0. -/
def decodeTableWord (nbits w : Nat) : Option Instr :=
  match decodeBytes (bytesOfWord (BitVec.ofNat 16 (w % 2 ^ nbits))) with
  | .ok (i, _) => some i
  | .error _ => none

/-- Format NNN (R92). -/
def wordNNN (fam : Nibble) (nnn : Addr) : Word := fam ++ nnn
/-- Formats XKK and XFF (R92). -/
def wordXKK (fam : Nibble) (x : Reg) (kk : Byte) : Word := fam ++ (BitVec.ofFin x : Nibble) ++ kk
/-- Formats XYF and XYN (R92). -/
def wordXYN (fam : Nibble) (x y : Reg) (n : Nibble) : Word :=
  fam ++ (BitVec.ofFin x : Nibble) ++ (BitVec.ofFin y : Nibble) ++ n

/-- The word of an instruction, from the formats of R92 and the opcode map of R95. -/
def encode : Instr → Word
  | .cls         => 0x00E0
  | .ret         => 0x00EE
  | .jp nnn      => wordNNN 0x1 nnn
  | .call nnn    => wordNNN 0x2 nnn
  | .seImm x kk  => wordXKK 0x3 x kk
  | .sneImm x kk => wordXKK 0x4 x kk
  | .seReg x y   => wordXYN 0x5 x y 0x0
  | .ldImm x kk  => wordXKK 0x6 x kk
  | .addImm x kk => wordXKK 0x7 x kk
  | .ldReg x y   => wordXYN 0x8 x y 0x0
  | .orReg x y   => wordXYN 0x8 x y 0x1
  | .andReg x y  => wordXYN 0x8 x y 0x2
  | .xorReg x y  => wordXYN 0x8 x y 0x3
  | .addReg x y  => wordXYN 0x8 x y 0x4
  | .subReg x y  => wordXYN 0x8 x y 0x5
  | .shr x y     => wordXYN 0x8 x y 0x6
  | .subnReg x y => wordXYN 0x8 x y 0x7
  | .shl x y     => wordXYN 0x8 x y 0xE
  | .sneReg x y  => wordXYN 0x9 x y 0x0
  | .ldI nnn     => wordNNN 0xA nnn
  | .jpV0 nnn    => wordNNN 0xB nnn
  | .rnd x kk    => wordXKK 0xC x kk
  | .drw x y n   => wordXYN 0xD x y n
  | .skp x       => wordXKK 0xE x 0x9E
  | .sknp x      => wordXKK 0xE x 0xA1
  | .ldVxDT x    => wordXKK 0xF x 0x07
  | .ldVxK x     => wordXKK 0xF x 0x0A
  | .ldDT x      => wordXKK 0xF x 0x15
  | .ldST x      => wordXKK 0xF x 0x18
  | .addI x      => wordXKK 0xF x 0x1E
  | .ldF x       => wordXKK 0xF x 0x29
  | .ldB x       => wordXKK 0xF x 0x33
  | .stRegs x    => wordXKK 0xF x 0x55
  | .ldRegs x    => wordXKK 0xF x 0x65

end Sys2Proof
end

