-- ==== Sys2Proof/Config.lean ====
section
/-! DEFINITION. The open parameters of the hardware (spec/00_scope.md R4): the type of what the environment supplies in one cycle
(`Input`), an uninterpreted constant that supplies it (`Config.env`), and the customary font. The fixed parameters of R4 stand
as the widths and numerals of the definitions that use them. -/

namespace Sys2Proof

/-- What the environment supplies for one cycle: the four open parameters of R4 that are asked once a cycle.
A cycle makes at most one oracle query (R190, R211 to R213), so one answer of each kind is all it can see; no relation
between the answers is assumed (R37). -/
structure Input where
  /-- Timer ticks that arrived since the previous cycle (R39, R223). -/
  ticks : Nat
  /-- The stop bit sampled at the start of the cycle (R40). -/
  stop : Bool
  /-- The keys that are pressed: `KeyDown(k)` answers 1 exactly for these 8-bit key numbers (R37). -/
  keysDown : List Byte
  /-- The answer of `KeyWait()`: `none`, or the key the keypad reports (R37). -/
  keyWait : Option Byte
  /-- The answer of `Rand()` (R38). -/
  rand : Byte
  deriving DecidableEq, Repr, Inhabited

/-- No tick, no stop, no key, and the random byte 0: one possible input, for tests and for placing an instruction. -/
def Input.quiet : Input := { ticks := 0, stop := false, keysDown := [], keyWait := none, rand := 0 }

/-- FREE VALUE (log 3): the inputs of cycle `n` where the state's own schedule says nothing. It has no body, so nothing can be
proved of the tick schedule, the stop schedule or the answers of the oracles: a statement holds for every environment. -/
opaque Config.env : Nat → Input

/-- PRESUMED (log 1), unsafe: the customary CHIP-8 font table, which spec/93_implementation_defined.md G1 offers as the default
instantiation of the open parameter `FONT`. Only `State.reset` rests on it; `State.launch` takes any table. -/
def Config.customaryFont : Vector Byte 80 := #v[
  0xF0, 0x90, 0x90, 0x90, 0xF0,  0x20, 0x60, 0x20, 0x20, 0x70,
  0xF0, 0x10, 0xF0, 0x80, 0xF0,  0xF0, 0x10, 0xF0, 0x10, 0xF0,
  0x90, 0x90, 0xF0, 0x10, 0x10,  0xF0, 0x80, 0xF0, 0x10, 0xF0,
  0xF0, 0x80, 0xF0, 0x90, 0xF0,  0xF0, 0x10, 0x20, 0x40, 0x40,
  0xF0, 0x90, 0xF0, 0x90, 0xF0,  0xF0, 0x90, 0xF0, 0x10, 0xF0,
  0xF0, 0x90, 0xF0, 0x90, 0x90,  0xE0, 0x90, 0xE0, 0x90, 0xE0,
  0xF0, 0x80, 0x80, 0x80, 0xF0,  0xE0, 0x90, 0x90, 0x90, 0xE0,
  0xF0, 0x80, 0xF0, 0x80, 0xF0,  0xF0, 0x80, 0xF0, 0x80, 0x80]

end Sys2Proof
end

