-- ==== Sys2Proof/Machine/State.lean ====
section
/-! DEFINITION. The state of the machine (spec/10_state.md R20 to R34) as plain data, its values after reset, and the reasons
the model stops. Engine faults are NOT among those reasons: the spec describes their entry (R249), so they are next states. -/

namespace Sys2Proof.Machine

/-- `STATUS` (R30). -/
inductive Status where
  /-- 0: the engine executes cycles. -/
  | running
  /-- 1: a self-jump was fetched (R123). -/
  | halted
  /-- 2: the stop signal was sampled asserted (R121). -/
  | stopped
  /-- 3: a fault was raised (R249). -/
  | faulted
  deriving DecidableEq, Repr

/-- The numeric value of `STATUS` (R30; UNVERIFIED, log 21). -/
def Status.code : Status → Nat
  | .running => 0
  | .halted => 1
  | .stopped => 2
  | .faulted => 3

/-- `FAULT.cause` (R31, R240). -/
inductive Cause where
  /-- 0: no fault. -/
  | none
  /-- 1: the fetched word matches no row of the opcode map (R241). -/
  | unknownOpcode
  /-- 2: the 17th nested call (R242). -/
  | stackOverflow
  /-- 3: a return on an empty stack (R243). -/
  | stackUnderflow
  /-- 4: a computed address above 0x0FFF (R244). -/
  | outOfBoundsAccess
  deriving DecidableEq, Repr

/-- The cause code, 3 bits (R31, R240; UNVERIFIED, log 21). -/
def Cause.code : Cause → BitVec 3
  | .none => 0
  | .unknownOpcode => 1
  | .stackOverflow => 2
  | .stackUnderflow => 3
  | .outOfBoundsAccess => 4

/-- `FAULT`, the record a fault leaves for the host (R31). -/
structure FaultRecord where
  cause : Cause
  /-- `PC` at the start of the faulting cycle. -/
  pc : Word
  /-- The fetched word, 0x0000 when the fetch itself faulted. -/
  instr : Word
  /-- The offending address of `OutOfBoundsAccess`, else 0x0000. -/
  addr : Word
  deriving DecidableEq, Repr

/-- All fields 0 (R31, R34). -/
def FaultRecord.clear : FaultRecord := { cause := .none, pc := 0, instr := 0, addr := 0 }

/-- The frame buffer `FB`: 32 rows of 64 pixels, row 0 at the top, column 0 at the left (R29). -/
abbrev Frame := Vector (Vector Bool 64) 32

/-- Every pixel 0 (R29). -/
def Frame.clear : Frame := Vector.replicate 32 (Vector.replicate 64 false)

/-- Memory as a list of cells in canonical form (`Memory.wf`, Machine/Ops.lean): what it does not list reads as
`Memory.unlisted`. -/
abbrev Memory := List Host.Cell

/-- Everything the spec gives the machine, and the four fields that carry its interfaces (DESIGN CHOICE, log 3, log 5). -/
structure State where
  /-- `V[0]` to `V[15]`, VF being `V[15]` (R20, R22). -/
  v : Vector Byte 16
  /-- The index register `I` (R23). -/
  i : Word
  /-- The program counter (R24). -/
  pc : Word
  /-- `SP`, the number of occupied stack entries (R25). -/
  sp : Byte
  /-- `STACK[0]` to `STACK[15]` (R25). -/
  stack : Vector Word 16
  /-- The delay timer (R26). -/
  dt : Byte
  /-- The sound timer (R27). -/
  st : Byte
  /-- `MEM[0]` to `MEM[4095]` (R28). -/
  mem : Memory
  /-- The frame buffer (R29). -/
  fb : Frame
  /-- `STATUS` (R30). -/
  status : Status
  /-- `FAULT` (R31). -/
  faultRec : FaultRecord
  /-- OUTPUT: the render events emitted so far, oldest first (R36, R199; DESIGN CHOICE, log 5). -/
  renders : List Frame
  /-- INPUT: what the environment has settled for the coming cycles, the next cycle first (R37 to R40; DESIGN CHOICE, log 3). -/
  inputs : List Input
  /-- INPUT: the inputs of the cycle in progress, taken at its start (DESIGN CHOICE, log 3). -/
  now : Input
  /-- How many cycles have begun: the index of the free inputs `Config.env` (DESIGN CHOICE, log 3). -/
  cycles : Nat
  deriving DecidableEq, Repr

/-- The reasons a model stops with a fault. `step` raises none: an engine fault is a next state (R249). -/
inductive Fault where
  /-- Raised by `State.launch` alone, for a program image longer than 3584 bytes: the loader reports `LoadError` and no
  machine state comes to exist (R245, R281). Safe: it is the spec's own outcome. -/
  | loadError
  deriving DecidableEq, Repr

/-- The reasons a model refuses. Every instruction has its meaning, so nothing raises one. -/
inductive Refusal where
  /-- For an arm of `exec` without a meaning; no arm is. Safe: it stops. -/
  | notModelled (mnemonic : String)
  deriving DecidableEq, Repr

/-- The state right after reset (R34, R280): the launch with the customary font table (PRESUMED, log 1) and an empty program
image (DESIGN CHOICE, log 2), with nothing settled about the environment (DESIGN CHOICE, log 3). Memory lists nothing: an
unlisted byte reads as its reset contents. -/
def State.reset : State where
  v := Vector.replicate 16 0
  i := 0
  pc := 0x200
  sp := 0
  stack := Vector.replicate 16 0
  dt := 0
  st := 0
  mem := []
  fb := Frame.clear
  status := .running
  faultRec := FaultRecord.clear
  renders := []
  inputs := []
  now := Input.quiet
  cycles := 0

end Sys2Proof.Machine
end

