-- ==== Sys2Proof/Machine/Ops.lean ====
section
/-! DEFINITION. The named operations over registers, memory, the program counter, the interfaces and the fault record: the
primitives of spec/00_scope.md R6 with spec/20_memory.md R64, R65 and fault entry, spec/60_exceptions.md R249. -/

namespace Sys2Proof.Machine

/-! ### General registers -/

/-- `V[r]` (R6, R20). -/
def State.reg (s : State) (r : Reg) : Byte := s.v[r]

/-- `V[r] <- b` (R6, R20): no register is hard-wired. -/
def State.setReg (s : State) (r : Reg) (b : Byte) : State := { s with v := s.v.set r b }

/-! ### Program counter -/

/-- `pc <- pc + 2` (R126); the 16-bit sum wraps only from a `PC` that no run reaches (R42; DESIGN CHOICE, log 7). -/
def State.advance (s : State) : State := { s with pc := s.pc + 2 }

/-- `pc <- pc + 4` if the skip is taken, else `pc <- pc + 2` (R126, R154); the wrap as in
`State.advance` (DESIGN CHOICE, log 7). -/
def State.skipIf (s : State) (taken : Bool) : State := { s with pc := s.pc + (if taken then 4 else 2) }

/-! ### Memory -/

/-- What an address that memory does not list reads as: its reset contents (R34), the font table in [0, 80) (PRESUMED, log 1) and 0. -/
def Memory.unlisted (a : Nat) : Byte :=
  if h : a < 80 then Config.customaryFont[a] else 0

/-- `MEM[a]`, without the bounds check. -/
def Memory.get : Memory → Nat → Byte
  | [], a => Memory.unlisted a
  | c :: rest, a => if c.1 = a then c.2 else Memory.get rest a

/-- The cells after `b` is written at `a`: sorted by address, and no cell where `b` is what an unlisted `a` reads as. -/
def Memory.set : Memory → Nat → Byte → Memory
  | [], a, b => if b = Memory.unlisted a then [] else [(a, b)]
  | c :: rest, a, b =>
    if c.1 < a then c :: Memory.set rest a b
    else
      let after := if c.1 = a then rest else c :: rest
      if b = Memory.unlisted a then after else (a, b) :: after

/-- Write consecutive bytes from address `a` up, without the bounds check. -/
def Memory.setBytes (m : Memory) (a : Nat) : List Byte → Memory
  | [] => m
  | b :: bs => Memory.setBytes (Memory.set m a b) (a + 1) bs

/-- Read `n` consecutive bytes from address `a` up, without the bounds check. -/
def Memory.getBytes (m : Memory) (a : Nat) : Nat → List Byte
  | 0 => []
  | n + 1 => Memory.get m a :: Memory.getBytes m (a + 1) n

/-- The canonical form, from a lower bound on the addresses: strictly rising, below 4096, and no cell equal to what its address
reads as unlisted. -/
def Memory.wfFrom (lo : Nat) : Memory → Bool
  | [] => true
  | c :: rest => decide (lo ≤ c.1) && decide (c.1 < 4096) && decide (c.2 ≠ Memory.unlisted c.1) && Memory.wfFrom (c.1 + 1) rest

/-- Memory is in its canonical form, so that equal memories are equal data. -/
def Memory.wf (m : Memory) : Bool := Memory.wfFrom 0 m

/-- The bounds check on the `n` bytes from `a`: the lowest of their addresses above 0xFFF, if any (R64, R65, R240). An empty
range is in bounds (R198 corner (a)). -/
def outOfBounds (a n : Nat) : Option Nat :=
  if n ≠ 0 ∧ a + n - 1 > 0xFFF then some (max a 0x1000) else none

/-- `MemRead` of `n` consecutive bytes: the whole range is checked first; the error is the offending address (R64). -/
def Memory.read (m : Memory) (a n : Nat) : Except Nat (List Byte) :=
  match outOfBounds a n with
  | some bad => .error bad
  | none => .ok (Memory.getBytes m a n)

/-- `MemWrite` of consecutive bytes: the whole range is checked before the first write (R65; UNVERIFIED,
log 10). -/
def Memory.write (m : Memory) (a : Nat) (bs : List Byte) : Except Nat Memory :=
  match outOfBounds a bs.length with
  | some bad => .error bad
  | none => .ok (Memory.setBytes m a bs)

/-- `MemRead(a, 2)`: a big-endian word, read by instruction fetch only (R63, R64). -/
def Memory.readWord (m : Memory) (a : Nat) : Except Nat Word :=
  match outOfBounds a 2 with
  | some bad => .error bad
  | none => .ok (wordOfBytes (Memory.get m a) (Memory.get m (a + 1)))

/-! ### Taking a fault -/

/-- `raise F(info)` (R249): only `STATUS` and `FAULT` change. It is applied to the state before the instruction's writes, so
every write of the cycle is discarded (UNVERIFIED, log 10); `instr` is the fetched word, or 0 when the fetch itself faulted.
There is no return from a fault (R250), so there is no operation beside this one. -/
def State.raise (s : State) (cause : Cause) (instr addr : Word) : State :=
  { s with status := .faulted, faultRec := { cause := cause, pc := s.pc, instr := instr, addr := addr } }

/-- `raise OutOfBoundsAccess(addr)` by the instruction `i`, whose word is `encode i` (R244, R249; DEDUCED, log 4). -/
def State.raiseBounds (s : State) (i : Instr) (addr : Nat) : State :=
  s.raise .outOfBoundsAccess (encode i) (BitVec.ofNat 16 addr)

/-! ### The interfaces -/

/-- `Render()` (R199): one render event, a copy of `FB` as it is now (UNVERIFIED, log 16). -/
def State.render (s : State) : State := { s with renders := s.renders ++ [s.fb] }

/-- `KeyDown(k)` (R37): the whole 8-bit key number is asked. -/
def State.keyDown (s : State) (k : Byte) : Bool := s.now.keysDown.contains k

/-- `KeyWait()` (R37). -/
def State.keyWait (s : State) : Option Byte := s.now.keyWait

/-- `Rand()` (R38). -/
def State.rand (s : State) : Byte := s.now.rand

/-- What the environment supplies for the next cycle: what is settled, else a free value (DESIGN CHOICE, log 3). -/
def State.nextInput (s : State) : Input :=
  match s.inputs with
  | inp :: _ => inp
  | [] => Config.env s.cycles

/-- A timer after one tick: it stops at zero (R223; UNVERIFIED, log 14). -/
def tickTimer (t : Byte) : Byte := if t = 0 then 0 else t - 1

/-- One tick (R223): both timers, only while Running. -/
def State.tick (s : State) : State :=
  if s.status = .running then { s with dt := tickTimer s.dt, st := tickTimer s.st } else s

/-- `n` ticks, one after the other (R39). -/
def State.ticks (s : State) : Nat → State
  | 0 => s
  | n + 1 => State.ticks s.tick n

end Sys2Proof.Machine
end

