-- ==== Sys2Proof/Machine/Operands.lean ====
section
/-! DEFINITION. The operand forms (spec/30_encoding.md R93): the zero-extended 12-bit constant, register lists, the glyph
address, the decimal digits. -/

namespace Sys2Proof.Machine

/-- `zext_16(nnn)` (R6, R93). -/
def zextAddr (nnn : Addr) : Word := nnn.setWidth 16

/-- `zext_16(b)` of a byte (R6). -/
def zextByte (b : Byte) : Word := b.setWidth 16

/-- The values of `V[0]` to `V[x]` in order (R231). -/
def State.regsUpTo (s : State) (x : Reg) : List Byte := s.v.toList.take (x.val + 1)

/-- `V[0]` to `V[x]` replaced by the bytes `bs` in order, the other registers untouched (R232). -/
def loadRegs (v : Vector Byte 16) (bs : List Byte) : Vector Byte 16 :=
  Vector.ofFn fun r : Fin 16 => bs.getD r.val v[r]

/-- `zext_16(b * 5)`: the glyph address, the product formed on integers and `b` not masked (R93, R182). -/
def glyphAddress (b : Byte) : Word := BitVec.ofNat 16 (b.toNat * 5)

/-- The decimal digits of a byte, hundreds first, one digit a byte (R230; UNVERIFIED, log 15). -/
def bcdDigits (b : Byte) : List Byte :=
  [BitVec.ofNat 8 (b.toNat / 100), BitVec.ofNat 8 (b.toNat / 10 % 10), BitVec.ofNat 8 (b.toNat % 10)]

end Sys2Proof.Machine
end

