-- ==== Sys2Proof/Machine/Flags.lean ====
section
/-! DEFINITION. The flag computations of the five flag-writing arithmetic instructions and of the draw (spec/00_scope.md R7,
spec/43_alu.md R160, R173), and the order of the two writes. -/

namespace Sys2Proof.Machine

/-- A flag is the byte 0x00 or 0x01 (R22). -/
def flagByte (b : Bool) : Byte := if b then 1 else 0

/-- `carry(a + b)`: 1 when `a + b > 255` (R7). -/
def carryFlag (a b : Byte) : Byte := flagByte (decide (a.toNat + b.toNat > 255))

/-- `1 - borrow(a - b)`: 1 when `a >= b`, equality included (R7, R168; UNVERIFIED, log 20). -/
def noBorrowFlag (a b : Byte) : Byte := flagByte (decide (b.toNat ≤ a.toNat))

/-- The bit a right shift by one pushes out: bit 0 (R169). -/
def shrFlag (a : Byte) : Byte := flagByte (a.getLsbD 0)

/-- The bit a left shift by one pushes out: bit 7 (R171). -/
def shlFlag (a : Byte) : Byte := flagByte (a.getLsbD 7)

/-- The two writes of a flag-writing instruction in the table's order: the flag to VF first, the result to `V[x]` second, so
that with `x = 15` the result stays (R160; UNVERIFIED, log 9). -/
def State.setFlagThenReg (s : State) (flag : Byte) (x : Reg) (result : Byte) : State :=
  (s.setReg VF flag).setReg x result

end Sys2Proof.Machine
end

