-- ==== Sys2Proof/Machine/Alu.lean ====
section
/-! DEFINITION. Register loads, arithmetic, logic and shifts (spec/43_alu.md R160 to R173). Operands are read from the state
before any write (R160). -/

namespace Sys2Proof.Machine

/-- 6xkk `LD Vx, kk` (R161). -/
def execLdImm (x : Reg) (kk : Byte) (s : State) : Host.Outcome State Fault Refusal :=
  .next (s.setReg x kk).advance

/-- 7xkk `ADD Vx, kk` (R162): wraps, VF is not written. -/
def execAddImm (x : Reg) (kk : Byte) (s : State) : Host.Outcome State Fault Refusal :=
  .next (s.setReg x (s.reg x + kk)).advance

/-- 8xy0 `LD Vx, Vy` (R163). -/
def execLdReg (x y : Reg) (s : State) : Host.Outcome State Fault Refusal :=
  .next (s.setReg x (s.reg y)).advance

/-- 8xy1 `OR Vx, Vy` (R164): VF is not written. -/
def execOrReg (x y : Reg) (s : State) : Host.Outcome State Fault Refusal :=
  .next (s.setReg x (s.reg x ||| s.reg y)).advance

/-- 8xy2 `AND Vx, Vy` (R165): VF is not written. -/
def execAndReg (x y : Reg) (s : State) : Host.Outcome State Fault Refusal :=
  .next (s.setReg x (s.reg x &&& s.reg y)).advance

/-- 8xy3 `XOR Vx, Vy` (R166): VF is not written. -/
def execXorReg (x y : Reg) (s : State) : Host.Outcome State Fault Refusal :=
  .next (s.setReg x (s.reg x ^^^ s.reg y)).advance

/-- 8xy4 `ADD Vx, Vy` (R167): the flag is the carry. -/
def execAddReg (x y : Reg) (s : State) : Host.Outcome State Fault Refusal :=
  .next (s.setFlagThenReg (carryFlag (s.reg x) (s.reg y)) x (s.reg x + s.reg y)).advance

/-- 8xy5 `SUB Vx, Vy` (R168): the flag is NOT borrow. -/
def execSubReg (x y : Reg) (s : State) : Host.Outcome State Fault Refusal :=
  .next (s.setFlagThenReg (noBorrowFlag (s.reg x) (s.reg y)) x (s.reg x - s.reg y)).advance

/-- 8xy6 `SHR Vx` (R169): `Vy` is neither read nor written. -/
def execShr (x : Reg) (s : State) : Host.Outcome State Fault Refusal :=
  .next (s.setFlagThenReg (shrFlag (s.reg x)) x (s.reg x >>> 1)).advance

/-- 8xy7 `SUBN Vx, Vy` (R170): `Vy - Vx`, the flag is NOT borrow of that difference. -/
def execSubnReg (x y : Reg) (s : State) : Host.Outcome State Fault Refusal :=
  .next (s.setFlagThenReg (noBorrowFlag (s.reg y) (s.reg x)) x (s.reg y - s.reg x)).advance

/-- 8xyE `SHL Vx` (R171): `Vy` is neither read nor written. -/
def execShl (x : Reg) (s : State) : Host.Outcome State Fault Refusal :=
  .next (s.setFlagThenReg (shlFlag (s.reg x)) x (s.reg x <<< 1)).advance

end Sys2Proof.Machine
end

