-- ==== Sys2Proof/Machine/Display.lean ====
section
/-! DEFINITION. The display compositor (spec/46_display.md R195 to R201). -/

namespace Sys2Proof.Machine

/-- `FB[r][c]` (R29). -/
def Frame.pixel (f : Frame) (r : Fin 32) (c : Fin 64) : Bool := f[r][c]

/-- `FB[r][c] <- b` (R29). -/
def Frame.setPixel (f : Frame) (r : Fin 32) (c : Fin 64) (b : Bool) : Frame := f.set r (f[r].set c b)

/-- Rows wrap modulo 32 (R195). -/
def displayRow (y : Nat) : Fin 32 := ⟨y % 32, Nat.mod_lt y (by decide)⟩

/-- Columns wrap modulo 64 (R195). -/
def displayColumn (x : Nat) : Fin 64 := ⟨x % 64, Nat.mod_lt x (by decide)⟩

/-- One turn of the loop of `blitRow` (R196): pixel `k` of the row, counted from the most significant bit; row and column are
reduced modulo 32 and 64, and a pixel that goes from set to unset is a hit. -/
def blitPixel (startX y : Nat) (rowBits : Byte) (acc : Frame × Bool) (k : Nat) : Frame × Bool :=
  let r := displayRow y
  let c := displayColumn (startX + k)
  let bit := rowBits.getLsbD (7 - k)
  let old := acc.1.pixel r c
  (acc.1.setPixel r c (old ^^ bit), acc.2 || (old && bit))

/-- `blitRow(startX, y, rowBits)` (R196): the frame after it, and whether a pixel went from set to unset. -/
def blitRow (f : Frame) (startX y : Nat) (rowBits : Byte) : Frame × Bool :=
  (List.range 8).foldl (blitPixel startX y rowBits) (f, false)

/-- The rows of a sprite, one below the other from display row `y`, with their collisions joined (R198). -/
def blitRows (f : Frame) (startX y : Nat) : List Byte → Frame × Bool
  | [] => (f, false)
  | bits :: rest =>
    let one := blitRow f startX y bits
    let more := blitRows one.1 startX (y + 1) rest
    (more.1, one.2 || more.2)

/-- 00E0 `CLS` (R197): clear, and a render event in any case. -/
def execCls (s : State) : Host.Outcome State Fault Refusal :=
  .next ({ s with fb := Frame.clear }).render.advance

/-- Dxyn `DRW Vx, Vy, n` (R198): the position is read before VF is written, the whole sprite is checked before any pixel
changes, `n = 0` reads nothing, draws nothing and cannot fault (UNVERIFIED, log 19). -/
def execDrw (x y : Reg) (n : Nibble) (s : State) : Host.Outcome State Fault Refusal :=
  match Memory.read s.mem s.i.toNat n.toNat with
  | .error bad => .next (s.raiseBounds (.drw x y n) bad)
  | .ok sprite =>
    let drawn := blitRows s.fb (s.reg x).toNat (s.reg y).toNat sprite
    .next (({ s with fb := drawn.1 }).setReg VF (flagByte drawn.2)).render.advance

end Sys2Proof.Machine
end

