-- ==== Sys2Proof/Machine/Flow.lean ====
section
/-! DEFINITION. Jumps, call and return (spec/41_flow.md R140 to R144). No target is checked here; the next fetch checks
it (UNVERIFIED, log 11). What `SP` counts and which address CALL stores is UNVERIFIED, log 8. -/

namespace Sys2Proof.Machine

/-- 00EE `RET` (R140): pop the top entry into `PC`; an empty stack is `StackUnderflow`. `SP` above 16, which no run reaches
(R42), is the stack-bounds fault of R242 (DESIGN CHOICE, log 7). -/
def execRet (s : State) : Host.Outcome State Fault Refusal :=
  if s.sp = 0 then .next (s.raise .stackUnderflow (encode .ret) 0)
  else
    match s.stack[s.sp.toNat - 1]? with
    | some target => .next { s with sp := s.sp - 1, pc := target }
    | none => .next (s.raise .stackOverflow (encode .ret) 0)

/-- 1nnn `JP nnn` (R141). A self-jump never reaches this meaning: the cycle halts first (R123). -/
def execJp (nnn : Addr) (s : State) : Host.Outcome State Fault Refusal :=
  .next { s with pc := zextAddr nnn }

/-- 2nnn `CALL nnn` (R142): push `pc + 2`; sixteen occupied entries are `StackOverflow`, and so is an `SP` above 16,
which no run reaches (DESIGN CHOICE, log 7, as is the wrap of the 16-bit `pc + 2` from a `PC` outside R42). -/
def execCall (nnn : Addr) (s : State) : Host.Outcome State Fault Refusal :=
  if h : s.sp.toNat < 16 then
    .next { s with stack := s.stack.set s.sp.toNat (s.pc + 2), sp := s.sp + 1, pc := zextAddr nnn }
  else .next (s.raise .stackOverflow (encode (.call nnn)) 0)

/-- Bnnn `JP V0, nnn` (R143): the sum is not reduced. -/
def execJpV0 (nnn : Addr) (s : State) : Host.Outcome State Fault Refusal :=
  .next { s with pc := zextAddr nnn + zextByte (s.reg 0) }

end Sys2Proof.Machine
end

