-- ==== Sys2Proof/Machine/Index.lean ====
section
/-! DEFINITION. The index register instructions (spec/44_index.md R180 to R182), the only ones that write `I`. -/

namespace Sys2Proof.Machine

/-- Annn `LD I, nnn` (R180). -/
def execLdI (nnn : Addr) (s : State) : Host.Outcome State Fault Refusal :=
  .next { s with i := zextAddr nnn }.advance

/-- Fx1E `ADD I, Vx` (R181): a sum above 0x0FFF is `OutOfBoundsAccess` with that sum as its address (UNVERIFIED, log
12); VF is not written. With `I` above 0xFF00, which no run reaches (R42), a sum
above 0xFFFF is recorded modulo 65536 in the 16-bit `FAULT.addr` (DESIGN CHOICE, log 7). -/
def execAddI (x : Reg) (s : State) : Host.Outcome State Fault Refusal :=
  let sum := s.i.toNat + (s.reg x).toNat
  if sum > 0x0FFF then .next (s.raiseBounds (.addI x) sum)
  else .next { s with i := BitVec.ofNat 16 sum }.advance

/-- Fx29 `LD F, Vx` (R182). -/
def execLdF (x : Reg) (s : State) : Host.Outcome State Fault Refusal :=
  .next { s with i := glyphAddress (s.reg x) }.advance

end Sys2Proof.Machine
end

