-- ==== Sys2Proof/Machine/Keypad.lean ====
section
/-! DEFINITION. The keypad instructions (spec/47_keypad.md R210 to R213) against the keypad oracle (R37; log 3). -/

namespace Sys2Proof.Machine

/-- Ex9E `SKP Vx` (R211): the whole value of `Vx` is the key number. -/
def execSkp (x : Reg) (s : State) : Host.Outcome State Fault Refusal :=
  .next (s.skipIf (s.keyDown (s.reg x)))

/-- ExA1 `SKNP Vx` (R212). -/
def execSknp (x : Reg) (s : State) : Host.Outcome State Fault Refusal :=
  .next (s.skipIf (!s.keyDown (s.reg x)))

/-- Fx0A `LD Vx, K` (R213): while no key is reported the cycle changes nothing, `PC` included. -/
def execLdVxK (x : Reg) (s : State) : Host.Outcome State Fault Refusal :=
  match s.keyWait with
  | none => .next s
  | some k => .next (s.setReg x k).advance

end Sys2Proof.Machine
end

