-- ==== Sys2Proof/Machine/MemXfer.lean ====
section
/-! DEFINITION. The memory transfer instructions (spec/49_memxfer.md R230 to R233). The whole range is checked before the first
access, so a faulting transfer has no partial effect; `I` never changes. -/

namespace Sys2Proof.Machine

/-- 8-bit values stored from `I` up, or `OutOfBoundsAccess` by the instruction `i` (R65, R233). -/
def storeAtI (i : Instr) (bs : List Byte) (s : State) : Host.Outcome State Fault Refusal :=
  match Memory.write s.mem s.i.toNat bs with
  | .error bad => .next (s.raiseBounds i bad)
  | .ok mem => .next { s with mem := mem }.advance

/-- Fx33 `LD B, Vx` (R230). -/
def execLdB (x : Reg) (s : State) : Host.Outcome State Fault Refusal :=
  storeAtI (.ldB x) (bcdDigits (s.reg x)) s

/-- Fx55 `LD [I], Vx` (R231). -/
def execStRegs (x : Reg) (s : State) : Host.Outcome State Fault Refusal :=
  storeAtI (.stRegs x) (s.regsUpTo x) s

/-- Fx65 `LD Vx, [I]` (R232). -/
def execLdRegs (x : Reg) (s : State) : Host.Outcome State Fault Refusal :=
  match Memory.read s.mem s.i.toNat (x.val + 1) with
  | .error bad => .next (s.raiseBounds (.ldRegs x) bad)
  | .ok bs => .next { s with v := loadRegs s.v bs }.advance

end Sys2Proof.Machine
end

