-- ==== Sys2Proof/Machine/Random.lean ====
section
/-! DEFINITION. The random number instruction (spec/45_random.md R190). -/

namespace Sys2Proof.Machine

/-- Cxkk `RND Vx, kk` (R190): one draw of the random oracle, a free value (R38; log 3), masked. -/
def execRnd (x : Reg) (kk : Byte) (s : State) : Host.Outcome State Fault Refusal :=
  .next (s.setReg x (s.rand &&& kk)).advance

end Sys2Proof.Machine
end

