-- ==== Sys2Proof/Machine/Timers.lean ====
section
/-! DEFINITION. The timer instructions (spec/48_timers.md R220 to R222); the tick (R223) is `State.tick` of Machine/Ops.lean. -/

namespace Sys2Proof.Machine

/-- Fx07 `LD Vx, DT` (R220). -/
def execLdVxDT (x : Reg) (s : State) : Host.Outcome State Fault Refusal :=
  .next (s.setReg x s.dt).advance

/-- Fx15 `LD DT, Vx` (R221). -/
def execLdDT (x : Reg) (s : State) : Host.Outcome State Fault Refusal :=
  .next { s with dt := s.reg x }.advance

/-- Fx18 `LD ST, Vx` (R222). -/
def execLdST (x : Reg) (s : State) : Host.Outcome State Fault Refusal :=
  .next { s with st := s.reg x }.advance

end Sys2Proof.Machine
end

