-- ==== Sys2Proof/Machine/Cycle.lean ====
section
/-! DEFINITION. The fetch-decode-execute cycle (spec/40_cycle.md R120 to R131) with the events at its boundary
(spec/60_exceptions.md R248). -/

namespace Sys2Proof.Machine

/-- The boundary before a cycle: the environment's inputs for it are taken, and the ticks that arrived are applied
(R39, R248 item 1; DESIGN CHOICE, log 3). -/
def State.beginCycle (s : State) : State :=
  let inp := s.nextInput
  { (s.ticks inp.ticks) with inputs := s.inputs.tail, now := inp, cycles := s.cycles + 1 }

/-- The self-jump check on the fetched word (R123): family 1 only (UNVERIFIED, log 18), and the target is the word's own
address. -/
def isSelfJump (w pc : Word) : Bool := famField w == 0x1 && zextAddr (nnnField w) == pc

/-- Decode and execute the fetched word (R124, R125); a word that is no instruction is `UnknownOpcode`. -/
def dispatchWord (w : Word) (s : State) : Host.Outcome State Fault Refusal :=
  match decode w with
  | .ok i => exec i s
  | .error _ => .next (s.raise .unknownOpcode w 0)

/-- The stages of a cycle once its inputs are taken, in the order of R129: stop, fetch, self-jump, dispatch
(UNVERIFIED, log 17). -/
def cycleStages (s : State) : Host.Outcome State Fault Refusal :=
  if s.now.stop then .next { s with status := .stopped }
  else
    match Memory.readWord s.mem s.pc.toNat with
    | .error bad => .next (s.raise .outOfBoundsAccess 0 (BitVec.ofNat 16 bad))
    | .ok w =>
      if isSelfJump w s.pc then .next { s with status := .halted }
      else dispatchWord w s

/-- One cycle (R120, R130), enabled only while Running; the other three states are final, and the model's step leaves them as
they are (R30; DESIGN CHOICE, log 6). -/
def cycle (s : State) : Host.Outcome State Fault Refusal :=
  if s.status = .running then cycleStages s.beginCycle else .next s

/-- The next cycle's inputs without a tick or a stop: those settled already, else `Input.quiet` (DESIGN CHOICE, log 2). -/
def State.quietInput (s : State) : Input :=
  match s.inputs with
  | inp :: _ => { inp with ticks := 0, stop := false }
  | [] => Input.quiet

/-- Place an instruction word where the next fetch reads it (R63): at `PC`, or at 0x200 where `PC` is outside the fetchable
range; the engine is set Running and the next cycle's stop bit clear, so that the very next step runs it (DESIGN CHOICE, log 2). -/
def State.placeWord (s : State) (w : Word) : State :=
  let pc := if s.pc.toNat ≤ 0xFFE then s.pc else 0x200
  { s with pc := pc, status := .running, mem := Memory.setBytes s.mem pc.toNat (bytesOfWord w),
           inputs := s.quietInput :: s.inputs.tail }

end Sys2Proof.Machine
end

