-- ==== Sys2Proof/Machine/Launch.lean ====
section
/-! DEFINITION. The launch (spec/10_state.md R34, R35; spec/70_reset_and_hazards.md R280, R281): reset with its parameters. -/

namespace Sys2Proof.Machine

/-- Memory after the two copies of a launch: the font at [0, 80), the program image from 0x200 (R34, R35). -/
def launchMemory (font : Vector Byte 80) (rom : List Byte) : Memory :=
  Memory.setBytes (Memory.setBytes [] 0 font.toList) 0x200 rom

/-- A launch: `LoadError` for an image longer than 3584 bytes, else the state of R34. It depends on no earlier state. -/
def State.launch (font : Vector Byte 80) (rom : List Byte) : Host.Outcome State Fault Refusal :=
  if rom.length ≤ 3584 then .next { State.reset with mem := launchMemory font rom }
  else .fault .loadError

end Sys2Proof.Machine
end

