-- ==== Sys2Proof/Safety.lean ====
section
/-! DEFINITION. The terms that claims about runs use: the invariant of spec/10_state.md R42, the states a launch can lead to
(R131), and the effect sets the spec gives the instructions as a whole (R21, R23, R25, R26, R27, R29, R74, R129, R199). -/

namespace Sys2Proof.Machine

/-- The invariants of R42, with the canonical form of memory standing for "no byte outside MEM[0..4095]". -/
abbrev State.Inv (s : State) : Prop :=
  s.sp.toNat ≤ 16 ∧ s.i.toNat ≤ 0x0FFF ∧ s.pc.toNat ≤ 0x10FE ∧
  (∀ k : Fin 16, k.val < s.sp.toNat → s.stack[k].toNat ≤ 0x1000) ∧
  (s.faultRec.cause = .none ↔ s.status ≠ .faulted) ∧ Memory.wf s.mem = true

/-- The states of the runs of R131: a launch with any font and program image, then steps, the environment settling the inputs
of the coming cycles as it likes in between. -/
inductive Reachable : State → Prop where
  | launch (font : Vector Byte 80) (rom : List Byte) (s : State) : State.launch font rom = .next s → Reachable s
  | schedule (s : State) (inputs : List Input) : Reachable s → Reachable { s with inputs := inputs }
  | step (s t : State) : Reachable s → Sys2Proof.Machine.step s = .next t → Reachable t

/-- The registers an instruction may write: `V[x]`, `V[0]` to `V[x]` for Fx65, and VF for the flag writers (R21). -/
def writesReg (i : Instr) (r : Reg) : Bool :=
  match i with
  | .ldImm x _ | .addImm x _ | .ldReg x _ | .orReg x _ | .andReg x _ | .xorReg x _ | .rnd x _ | .ldVxDT x | .ldVxK x => r == x
  | .addReg x _ | .subReg x _ | .shr x _ | .subnReg x _ | .shl x _ => r == x || r == VF
  | .drw _ _ _ => r == VF
  | .ldRegs x => decide (r ≤ x)
  | .cls | .ret | .jp _ | .call _ | .seImm _ _ | .sneImm _ _ | .seReg _ _ | .sneReg _ _ | .ldI _ | .jpV0 _ | .skp _ | .sknp _
  | .ldDT _ | .ldST _ | .addI _ | .ldF _ | .ldB _ | .stRegs _ => false

/-- The instructions that write `I`: Annn, Fx1E, Fx29 (R23). -/
def writesIndex : Instr → Bool
  | .ldI _ | .addI _ | .ldF _ => true
  | .cls | .ret | .jp _ | .call _ | .seImm _ _ | .sneImm _ _ | .seReg _ _ | .ldImm _ _ | .addImm _ _ | .ldReg _ _ | .orReg _ _
  | .andReg _ _ | .xorReg _ _ | .addReg _ _ | .subReg _ _ | .shr _ _ | .subnReg _ _ | .shl _ _ | .sneReg _ _ | .jpV0 _
  | .rnd _ _ | .drw _ _ _ | .skp _ | .sknp _ | .ldVxDT _ | .ldVxK _ | .ldDT _ | .ldST _ | .ldB _ | .stRegs _ | .ldRegs _ => false

/-- The instructions that write `FB` and emit a render event: 00E0 and Dxyn (R29, R199). -/
def writesDisplay : Instr → Bool
  | .cls | .drw _ _ _ => true
  | .ret | .jp _ | .call _ | .seImm _ _ | .sneImm _ _ | .seReg _ _ | .ldImm _ _ | .addImm _ _ | .ldReg _ _ | .orReg _ _
  | .andReg _ _ | .xorReg _ _ | .addReg _ _ | .subReg _ _ | .shr _ _ | .subnReg _ _ | .shl _ _ | .sneReg _ _ | .ldI _ | .jpV0 _
  | .rnd _ _ | .skp _ | .sknp _ | .ldVxDT _ | .ldVxK _ | .ldDT _ | .ldST _ | .addI _ | .ldF _ | .ldB _ | .stRegs _
  | .ldRegs _ => false

/-- How many bytes an instruction stores, from address `I` up: three by Fx33, `x + 1` by Fx55, none by any other (R66, R74). -/
def storeLength : Instr → Nat
  | .ldB _ => 3
  | .stRegs x => x.val + 1
  | .cls | .ret | .jp _ | .call _ | .seImm _ _ | .sneImm _ _ | .seReg _ _ | .ldImm _ _ | .addImm _ _ | .ldReg _ _ | .orReg _ _
  | .andReg _ _ | .xorReg _ _ | .addReg _ _ | .subReg _ _ | .shr _ _ | .subnReg _ _ | .shl _ _ | .sneReg _ _ | .ldI _ | .jpV0 _
  | .rnd _ _ | .drw _ _ _ | .skp _ | .sknp _ | .ldVxDT _ | .ldVxK _ | .ldDT _ | .ldST _ | .addI _ | .ldF _ | .ldRegs _ => 0

/-- The execute-stage check of an instruction, at most one (R129): the fault it raises in the state `s`, with the address of
`OutOfBoundsAccess` (R240, R244), or none. It speaks of states with `SP <= 16` and `I <= 0x0FFF` (R42). -/
def executeFault (i : Instr) (s : State) : Option (Cause × Nat) :=
  match i with
  | .ret => if s.sp.toNat = 0 then some (.stackUnderflow, 0) else none
  | .call _ => if s.sp.toNat = 16 then some (.stackOverflow, 0) else none
  | .addI x =>
    if s.i.toNat + (s.reg x).toNat > 0x0FFF then some (.outOfBoundsAccess, s.i.toNat + (s.reg x).toNat) else none
  | .drw _ _ n => if n.toNat > 0 ∧ s.i.toNat + n.toNat - 1 > 0x0FFF then some (.outOfBoundsAccess, 0x1000) else none
  | .ldB _ => if s.i.toNat + 2 > 0x0FFF then some (.outOfBoundsAccess, 0x1000) else none
  | .stRegs x | .ldRegs x => if s.i.toNat + x.val > 0x0FFF then some (.outOfBoundsAccess, 0x1000) else none
  | .cls | .jp _ | .seImm _ _ | .sneImm _ _ | .seReg _ _ | .ldImm _ _ | .addImm _ _ | .ldReg _ _ | .orReg _ _ | .andReg _ _
  | .xorReg _ _ | .addReg _ _ | .subReg _ _ | .shr _ _ | .subnReg _ _ | .shl _ _ | .sneReg _ _ | .ldI _ | .jpV0 _ | .rnd _ _
  | .skp _ | .sknp _ | .ldVxDT _ | .ldVxK _ | .ldDT _ | .ldST _ | .ldF _ => none

/-- Whether the sprite of `DRW Vx, Vy, n` has a 1 bit on the pixel of row `r` and column `c`: row `row` of the sprite is the byte
at `I + row`, drawn on display row `(V[y] + row) mod 32`, its bit `7 - k` at column `(V[x] + k) mod 64` (R196, R198). -/
abbrev spriteCovers (s : State) (x y : Reg) (n : Nibble) (r : Fin 32) (c : Fin 64) : Prop :=
  ∃ row : Fin n.toNat, ∃ k : Fin 8,
    r.val = ((s.reg y).toNat + row.val) % 32 ∧ c.val = ((s.reg x).toNat + k.val) % 64 ∧
    (Memory.get s.mem (s.i.toNat + row.val)).getLsbD (7 - k.val) = true

end Sys2Proof.Machine
end

