-- ==== Sys2Proof/Certificates/Slice0/Obligations.lean ====
section
/-! DEFINITION. The statements for the provers. Each docstring names the rule of spec/ it formalises; where a statement rests on
a decision or an inference that the spec marks as its own, the docstring names it (D<n> of spec/92_eei_decisions.md) and the
statement's basis in OBLIGATIONS.json is 'derived'. Effects are stated with the rest of the state left alone:
`t = { s with v := t.v, pc := s.pc + 2 }` says that nothing but the general registers and `PC` differs. `s.pc + 2` is the 16-bit sum, which is the spec's integer sum
wherever the instruction can have been fetched from (R126; log 7). -/

open Sys2Proof Sys2Proof.Machine

/-! ### Launch and reset -/

/-- R34, R280 (FAULT's record is D9): a launch with any font and any image of at most 3584 bytes leaves every state element at
the value of the reset table, and emits no render event. -/
def Obligations.LaunchGivesResetValues : Prop :=
  ∀ (font : Vector Byte 80) (rom : List Byte), rom.length ≤ 3584 →
    ∃ s, State.launch font rom = .next s ∧
      (∀ r, s.reg r = 0) ∧ s.i = 0 ∧ s.pc = 0x200 ∧ s.sp = 0 ∧ (∀ k : Fin 16, s.stack[k] = 0) ∧ s.dt = 0 ∧ s.st = 0 ∧
      (∀ a : Fin 80, Memory.get s.mem a.val = font[a]) ∧
      (∀ a, 80 ≤ a → a < 0x200 → Memory.get s.mem a = 0) ∧
      (∀ k : Fin rom.length, Memory.get s.mem (0x200 + k.val) = rom[k]) ∧
      (∀ a, 0x200 + rom.length ≤ a → a ≤ 0xFFF → Memory.get s.mem a = 0) ∧
      (∀ r c, Frame.pixel s.fb r c = false) ∧ s.status = .running ∧
      s.faultRec.cause.code = 0 ∧ s.faultRec.pc = 0 ∧ s.faultRec.instr = 0 ∧ s.faultRec.addr = 0 ∧ s.renders = []

/-- R245: a longer image is `LoadError` and no state comes to exist; `LoadError` never occurs after reset. -/
def Obligations.OversizedImageIsLoadError : Prop :=
  (∀ (font : Vector Byte 80) (rom : List Byte), rom.length > 3584 → State.launch font rom = .fault .loadError) ∧
  ∀ s, step s ≠ .fault .loadError

/-- R42 at the model's own reset state. -/
def Obligations.ResetMeetsInvariant : Prop := State.reset.Inv

/-! ### Encoding -/

/-- R92, R94, R95: decoding an encoded instruction gives it back with every operand, and leaves the following bytes. -/
def Obligations.DecodeOfEncode : Prop :=
  ∀ i : Instr, decode (encode i) = .ok i ∧
    ∀ rest : List Byte, decodeBytes (bytesOfWord (encode i) ++ rest) = .ok (i, rest)

/-- R94, R98: a decoded word is the encoding of what it decodes to, unused fields included; so the word that a fault records
(`encode i`, log 4) is the fetched word. -/
def Obligations.EncodeOfDecode : Prop :=
  ∀ (w : Word) (i : Instr), decode w = .ok i → encode i = w

/-- R95: a word is the instruction of a row exactly when the word under the row's mask is the row's match value. -/
def Obligations.DecodeFollowsOpcodeMap : Prop :=
  ∀ (w : Word) (r : Row), r ∈ opcodeMap →
    (w &&& r.mask = r.pattern ↔ ∃ i, decode w = .ok i ∧ i.row = r)

/-- R100: every word is one instruction or `UnknownOpcode`, by the opcode map and the word alone. -/
def Obligations.DecodingIsTotal : Prop :=
  ∀ w : Word, ((∃ i, decode w = .ok i) ∧ wellFormedWord w = true) ∨
    (decode w = .error (.unknownOpcode w) ∧ wellFormedWord w = false)

/-- R96's table of illegal words, family by family (its counts, which the spec derives, are not stated). -/
def Obligations.IllegalWordsByFamily : Prop :=
  ∀ w : Word, decode w = .error (.unknownOpcode w) ↔
    (w.toNat / 0x1000 = 0x0 ∧ w.toNat ≠ 0x00E0 ∧ w.toNat ≠ 0x00EE) ∨
    ((w.toNat / 0x1000 = 0x5 ∨ w.toNat / 0x1000 = 0x9) ∧ w.toNat % 0x10 ≠ 0) ∨
    (w.toNat / 0x1000 = 0x8 ∧ w.toNat % 0x10 ∈ [0x8, 0x9, 0xA, 0xB, 0xC, 0xD, 0xF]) ∨
    (w.toNat / 0x1000 = 0xE ∧ w.toNat % 0x100 ∉ [0x9E, 0xA1]) ∨
    (w.toNat / 0x1000 = 0xF ∧ w.toNat % 0x100 ∉ [0x07, 0x0A, 0x15, 0x18, 0x1E, 0x29, 0x33, 0x55, 0x65])

/-- Words written out from the encodings of R95, one a family, and two illegal ones of R96. -/
def Obligations.DecodeOfWrittenWords : Prop :=
  decode 0x00EE = .ok .ret ∧ decode 0x1ABC = .ok (.jp 0xABC) ∧ decode 0x4013 = .ok (.sneImm 0 0x13) ∧
  decode 0x8F17 = .ok (.subnReg 15 1) ∧ decode 0xA123 = .ok (.ldI 0x123) ∧ decode 0xC00F = .ok (.rnd 0 0x0F) ∧
  decode 0xD5A7 = .ok (.drw 5 10 7) ∧ decode 0xE5A1 = .ok (.sknp 5) ∧ decode 0xF218 = .ok (.ldST 2) ∧
  decode 0xF265 = .ok (.ldRegs 2) ∧ decode 0x0000 = .error (.unknownOpcode 0x0000) ∧
  decode 0x5011 = .error (.unknownOpcode 0x5011)

/-- R91: where each field stands in the word, and how the fields overlap. -/
def Obligations.FieldsOfTheWord : Prop :=
  ∀ w : Word, (famField w).toNat = w.toNat / 0x1000 ∧ (xField w).val = w.toNat / 0x100 % 0x10 ∧
    (yField w).val = w.toNat / 0x10 % 0x10 ∧ (nField w).toNat = w.toNat % 0x10 ∧ (kkField w).toNat = w.toNat % 0x100 ∧
    (nnnField w).toNat = w.toNat % 0x1000 ∧
    (nnnField w).toNat = (xField w).val * 0x100 + (kkField w).toNat ∧
    (kkField w).toNat = (yField w).val * 0x10 + (nField w).toNat

/-! ### Memory -/

/-- R64: `MemRead` of one byte and of two, with the address of the fault. -/
def Obligations.MemReadChecksBounds : Prop :=
  ∀ (m : Memory) (a : Nat),
    (if a > 0xFFF then Memory.read m a 1 = .error a else Memory.read m a 1 = .ok [Memory.get m a]) ∧
    (if a + 1 > 0xFFF then Memory.readWord m a = .error (if a = 0xFFF then 0x1000 else a)
     else Memory.readWord m a = .ok (Memory.get m a ++ Memory.get m (a + 1)))

/-- R65, R240 and the decision D4 (log 10): `MemWrite` writes the one byte or answers the address of the fault; a list of bytes
that lies in memory is written whole, byte `k` at `a + k` and nothing else, and one that leaves memory is not written at all
and answers the lowest address outside. -/
def Obligations.MemWriteChecksBounds : Prop :=
  ∀ (m : Memory) (a : Nat) (b : Byte) (bs : List Byte), Memory.wf m = true →
    (if a > 0xFFF then Memory.write m a [b] = .error a
     else ∃ m', Memory.write m a [b] = .ok m' ∧ Memory.wf m' = true ∧
       ∀ c, Memory.get m' c = if c = a then b else Memory.get m c) ∧
    (bs.length ≠ 0 → a + bs.length > 0x1000 → Memory.write m a bs = .error (max a 0x1000)) ∧
    (bs.length = 0 ∨ a + bs.length ≤ 0x1000 →
      ∃ m', Memory.write m a bs = .ok m' ∧ Memory.wf m' = true ∧ (∀ k : Fin bs.length, Memory.get m' (a + k.val) = bs[k]) ∧
        ∀ c, c < a ∨ a + bs.length ≤ c → Memory.get m' c = Memory.get m c)

/-- R63 and R72 (D20): what Fx55 stores in two neighbouring bytes is, big-endian, the word that a fetch from there reads. -/
def Obligations.StoredBytesAreFetched : Prop :=
  ∀ (x j k : Reg) (s t : State), Memory.wf s.mem = true → s.i.toNat + x.val ≤ 0x0FFF → k.val = j.val + 1 → k ≤ x →
    exec (.stRegs x) s = .next t →
    Memory.readWord t.mem (s.i.toNat + j.val) = .ok (s.reg j ++ s.reg k)

/-! ### Jumps, call and return -/

/-- R140 (D1, D2): RET with `k + 1` occupied entries pops entry `k` into `PC`; the entry is not cleared. -/
def Obligations.RetPopsTheStack : Prop :=
  ∀ (s : State) (k : Fin 16), s.sp.toNat = k.val + 1 →
    ∃ t, exec .ret s = .next t ∧ t = { s with sp := t.sp, pc := t.pc } ∧ t.sp.toNat = k.val ∧ t.pc = s.stack[k]

/-- R141: JP writes its target, zero-extended. -/
def Obligations.JpSetsProgramCounter : Prop :=
  ∀ (nnn : Addr) (s : State),
    ∃ t, exec (.jp nnn) s = .next t ∧ t = { s with pc := t.pc } ∧ t.pc.toNat = nnn.toNat

/-- R142 (D1, D2): CALL with `k < 16` occupied entries pushes `pc + 2` as entry `k`. -/
def Obligations.CallPushesReturnAddress : Prop :=
  ∀ (nnn : Addr) (s : State) (k : Fin 16), s.sp.toNat = k.val →
    ∃ t, exec (.call nnn) s = .next t ∧ t = { s with stack := t.stack, sp := t.sp, pc := t.pc } ∧
      t.stack[k] = s.pc + 2 ∧ (∀ j : Fin 16, j ≠ k → t.stack[j] = s.stack[j]) ∧
      t.sp.toNat = k.val + 1 ∧ t.pc.toNat = nnn.toNat

/-- R143 (D5): JP V0 writes the unreduced sum, unchecked. -/
def Obligations.JpV0AddsRegisterZero : Prop :=
  ∀ (nnn : Addr) (s : State),
    ∃ t, exec (.jpV0 nnn) s = .next t ∧ t = { s with pc := t.pc } ∧ t.pc.toNat = nnn.toNat + (s.reg 0).toNat

/-! ### Skips -/

/-- R150 to R153: the four register skips write `PC` only. -/
def Obligations.RegisterSkips : Prop :=
  ∀ (x y : Reg) (kk : Byte) (s : State),
    (∃ t, exec (.seImm x kk) s = .next t ∧ t = { s with pc := t.pc } ∧
      t.pc = if s.reg x = kk then s.pc + 4 else s.pc + 2) ∧
    (∃ t, exec (.sneImm x kk) s = .next t ∧ t = { s with pc := t.pc } ∧
      t.pc = if s.reg x ≠ kk then s.pc + 4 else s.pc + 2) ∧
    (∃ t, exec (.seReg x y) s = .next t ∧ t = { s with pc := t.pc } ∧
      t.pc = if s.reg x = s.reg y then s.pc + 4 else s.pc + 2) ∧
    (∃ t, exec (.sneReg x y) s = .next t ∧ t = { s with pc := t.pc } ∧
      t.pc = if s.reg x ≠ s.reg y then s.pc + 4 else s.pc + 2)

/-! ### Arithmetic and logic -/

/-- R161, R163: LD Vx, kk and LD Vx, Vy write `V[x]` and no other register, VF included unless it is `V[x]`. -/
def Obligations.RegisterLoads : Prop :=
  ∀ (x y : Reg) (kk : Byte) (s : State),
    (∃ t, exec (.ldImm x kk) s = .next t ∧ t = { s with v := t.v, pc := s.pc + 2 } ∧
      t.reg x = kk ∧ ∀ r, r ≠ x → t.reg r = s.reg r) ∧
    (∃ t, exec (.ldReg x y) s = .next t ∧ t = { s with v := t.v, pc := s.pc + 2 } ∧
      t.reg x = s.reg y ∧ ∀ r, r ≠ x → t.reg r = s.reg r)

/-- R162: ADD Vx, kk wraps modulo 256 and discards the carry; VF is not written. -/
def Obligations.AddImmediateWraps : Prop :=
  ∀ (x : Reg) (kk : Byte) (s : State),
    ∃ t, exec (.addImm x kk) s = .next t ∧ t = { s with v := t.v, pc := s.pc + 2 } ∧
      (t.reg x).toNat = ((s.reg x).toNat + kk.toNat) % 256 ∧ ∀ r, r ≠ x → t.reg r = s.reg r

/-- R164, R165, R166: OR, AND and XOR, bit by bit; VF is neither written nor cleared. -/
def Obligations.BitwiseLogic : Prop :=
  ∀ (x y : Reg) (s : State),
    (∃ t, exec (.orReg x y) s = .next t ∧ t = { s with v := t.v, pc := s.pc + 2 } ∧
      (∀ k, (t.reg x).getLsbD k = ((s.reg x).getLsbD k || (s.reg y).getLsbD k)) ∧ ∀ r, r ≠ x → t.reg r = s.reg r) ∧
    (∃ t, exec (.andReg x y) s = .next t ∧ t = { s with v := t.v, pc := s.pc + 2 } ∧
      (∀ k, (t.reg x).getLsbD k = ((s.reg x).getLsbD k && (s.reg y).getLsbD k)) ∧ ∀ r, r ≠ x → t.reg r = s.reg r) ∧
    (∃ t, exec (.xorReg x y) s = .next t ∧ t = { s with v := t.v, pc := s.pc + 2 } ∧
      (∀ k, (t.reg x).getLsbD k = ((s.reg x).getLsbD k ^^ (s.reg y).getLsbD k)) ∧ ∀ r, r ≠ x → t.reg r = s.reg r)

/-- R167, R173 with R160 (D3, log 9): ADD Vx, Vy. With `x = 15` the sum stays in VF and the carry is lost. -/
def Obligations.AddSetsCarry : Prop :=
  ∀ (x y : Reg) (s : State),
    ∃ t, exec (.addReg x y) s = .next t ∧ t = { s with v := t.v, pc := s.pc + 2 } ∧
      (t.reg x).toNat = ((s.reg x).toNat + (s.reg y).toNat) % 256 ∧
      (x ≠ VF → (t.reg VF).toNat = if (s.reg x).toNat + (s.reg y).toNat > 255 then 1 else 0) ∧
      ∀ r, r ≠ x → r ≠ VF → t.reg r = s.reg r

/-- R168, R173 with R160 (D3, log 9) and R7 (D28, log 20): SUB Vx, Vy; VF is 1 when no borrow occurs, equality included. -/
def Obligations.SubSetsNotBorrow : Prop :=
  ∀ (x y : Reg) (s : State),
    ∃ t, exec (.subReg x y) s = .next t ∧ t = { s with v := t.v, pc := s.pc + 2 } ∧
      (t.reg x).toNat = ((s.reg x).toNat + 256 - (s.reg y).toNat) % 256 ∧
      (x ≠ VF → (t.reg VF).toNat = if (s.reg x).toNat ≥ (s.reg y).toNat then 1 else 0) ∧
      ∀ r, r ≠ x → r ≠ VF → t.reg r = s.reg r

/-- R170, R173 with R160 (D3, log 9) and R7 (D28, log 20): SUBN Vx, Vy. -/
def Obligations.SubnSetsNotBorrow : Prop :=
  ∀ (x y : Reg) (s : State),
    ∃ t, exec (.subnReg x y) s = .next t ∧ t = { s with v := t.v, pc := s.pc + 2 } ∧
      (t.reg x).toNat = ((s.reg y).toNat + 256 - (s.reg x).toNat) % 256 ∧
      (x ≠ VF → (t.reg VF).toNat = if (s.reg y).toNat ≥ (s.reg x).toNat then 1 else 0) ∧
      ∀ r, r ≠ x → r ≠ VF → t.reg r = s.reg r

/-- R169, R171, R173, R98 with R160 (D3, log 9): the shifts move `Vx` in place by one, whatever `y` is; the flag is the bit
shifted out. -/
def Obligations.ShiftsByOne : Prop :=
  ∀ (x y : Reg) (s : State),
    (∃ t, exec (.shr x y) s = .next t ∧ t = { s with v := t.v, pc := s.pc + 2 } ∧
      (t.reg x).toNat = (s.reg x).toNat / 2 ∧ (x ≠ VF → (t.reg VF).toNat = (s.reg x).toNat % 2) ∧
      ∀ r, r ≠ x → r ≠ VF → t.reg r = s.reg r) ∧
    (∃ t, exec (.shl x y) s = .next t ∧ t = { s with v := t.v, pc := s.pc + 2 } ∧
      (t.reg x).toNat = 2 * (s.reg x).toNat % 256 ∧ (x ≠ VF → (t.reg VF).toNat = (s.reg x).toNat / 128) ∧
      ∀ r, r ≠ x → r ≠ VF → t.reg r = s.reg r)

/-! ### Index register -/

/-- R180: LD I writes the constant, zero-extended. -/
def Obligations.LoadIndex : Prop :=
  ∀ (nnn : Addr) (s : State),
    ∃ t, exec (.ldI nnn) s = .next t ∧ t = { s with i := t.i, pc := s.pc + 2 } ∧ t.i.toNat = nnn.toNat

/-- R181 (D6): ADD I with a sum of at most 0x0FFF writes the exact sum; VF is not written. -/
def Obligations.AddIndexInRange : Prop :=
  ∀ (x : Reg) (s : State), s.i.toNat + (s.reg x).toNat ≤ 0x0FFF →
    ∃ t, exec (.addI x) s = .next t ∧ t = { s with i := t.i, pc := s.pc + 2 } ∧
      t.i.toNat = s.i.toNat + (s.reg x).toNat

/-- R182: LD F points `I` at five times `Vx`, not masked. -/
def Obligations.LoadGlyphAddress : Prop :=
  ∀ (x : Reg) (s : State),
    ∃ t, exec (.ldF x) s = .next t ∧ t = { s with i := t.i, pc := s.pc + 2 } ∧ t.i.toNat = (s.reg x).toNat * 5

/-! ### Random numbers -/

/-- R190 (D12; the draw is the field `now.rand`, log 3): RND masks the draw, whatever it is, so no bit outside `kk` is set. -/
def Obligations.RandomIsMaskedDraw : Prop :=
  ∀ (x : Reg) (kk : Byte) (s : State),
    ∃ t, exec (.rnd x kk) s = .next t ∧ t = { s with v := t.v, pc := s.pc + 2 } ∧
      t.reg x = s.now.rand &&& kk ∧ t.reg x &&& ~~~kk = 0 ∧ ∀ r, r ≠ x → t.reg r = s.reg r

/-! ### Display -/

/-- R197, R199 (D16, log 16): CLS sets every pixel 0 and emits a render event of that grid in any case. -/
def Obligations.ClsClearsAndRenders : Prop :=
  ∀ s : State,
    ∃ t, exec .cls s = .next t ∧ t = { s with fb := t.fb, renders := s.renders ++ [t.fb], pc := s.pc + 2 } ∧
      ∀ r c, Frame.pixel t.fb r c = false

/-- R195, R196, R198, R199, R201 (D16, D22, D29): DRW whose sprite lies in memory, or with `n = 0`, toggles exactly the pixels
under a 1 bit of the sprite, sets VF exactly when one of them was set, and emits one render event. -/
def Obligations.DrawTogglesSpritePixels : Prop :=
  ∀ (x y : Reg) (n : Nibble) (s : State), (n.toNat = 0 ∨ s.i.toNat + n.toNat - 1 ≤ 0x0FFF) →
    ∃ t, exec (.drw x y n) s = .next t ∧
      t = { s with v := t.v, fb := t.fb, renders := s.renders ++ [t.fb], pc := s.pc + 2 } ∧
      (∀ r c, Frame.pixel t.fb r c = true ↔ (Frame.pixel s.fb r c = true ↔ ¬ spriteCovers s x y n r c)) ∧
      (t.reg VF = 0 ∨ t.reg VF = 1) ∧
      (t.reg VF = 1 ↔ ∃ r c, Frame.pixel s.fb r c = true ∧ Frame.pixel t.fb r c = false) ∧
      ∀ r, r ≠ VF → t.reg r = s.reg r

/-- R200: drawing the same sprite at the same position again restores every pixel; the second draw collides exactly where the
first one set a pixel. "The same position" is a premise, since the first draw writes VF, which `x` or `y` may name. -/
def Obligations.DoubleDrawRestoresFrame : Prop :=
  ∀ (x y : Reg) (n : Nibble) (s : State), (n.toNat = 0 ∨ s.i.toNat + n.toNat - 1 ≤ 0x0FFF) →
    ∃ t, exec (.drw x y n) s = .next t ∧
      (t.reg x = s.reg x → t.reg y = s.reg y →
        ∃ u, exec (.drw x y n) t = .next u ∧ u.fb = s.fb ∧
          (u.reg VF = 1 ↔ ∃ r c, Frame.pixel s.fb r c = false ∧ Frame.pixel t.fb r c = true))

/-! ### Keypad -/

/-- R211, R212 (D11; the keypad's answers are the field `now.keysDown`, log 3): the keypad skips ask the whole 8-bit value of `Vx` and write `PC` only. -/
def Obligations.KeypadSkips : Prop :=
  ∀ (x : Reg) (s : State),
    (∃ t, exec (.skp x) s = .next t ∧ t = { s with pc := t.pc } ∧
      t.pc = if s.reg x ∈ s.now.keysDown then s.pc + 4 else s.pc + 2) ∧
    (∃ t, exec (.sknp x) s = .next t ∧ t = { s with pc := t.pc } ∧
      t.pc = if s.reg x ∈ s.now.keysDown then s.pc + 2 else s.pc + 4)

/-- R213 (D11; the keypad's answer is the field `now.keyWait`, log 3): LD Vx, K writes the reported key; while none is reported nothing changes, `PC` included. -/
def Obligations.WaitForKey : Prop :=
  ∀ (x : Reg) (s : State),
    (s.now.keyWait = none → exec (.ldVxK x) s = .next s) ∧
    (∀ k, s.now.keyWait = some k →
      ∃ t, exec (.ldVxK x) s = .next t ∧ t = { s with v := t.v, pc := s.pc + 2 } ∧
        t.reg x = k ∧ ∀ r, r ≠ x → t.reg r = s.reg r)

/-! ### Timers -/

/-- R220, R221, R222: the timer instructions copy between a general register and a timer. -/
def Obligations.TimerInstructions : Prop :=
  ∀ (x : Reg) (s : State),
    (∃ t, exec (.ldVxDT x) s = .next t ∧ t = { s with v := t.v, pc := s.pc + 2 } ∧
      t.reg x = s.dt ∧ ∀ r, r ≠ x → t.reg r = s.reg r) ∧
    (∃ t, exec (.ldDT x) s = .next t ∧ t = { s with dt := s.reg x, pc := s.pc + 2 }) ∧
    (∃ t, exec (.ldST x) s = .next t ∧ t = { s with st := s.reg x, pc := s.pc + 2 })

/-- R223, R224, R30 (D13, G4, log 14): `n` ticks take `n` from each timer, never below zero, and touch nothing else; outside
Running they do nothing. -/
def Obligations.TicksStopAtZero : Prop :=
  ∀ (s : State) (n : Nat),
    (s.status = .running →
      s.ticks n = { s with dt := (s.ticks n).dt, st := (s.ticks n).st } ∧
      (s.ticks n).dt.toNat = s.dt.toNat - n ∧ (s.ticks n).st.toNat = s.st.toNat - n) ∧
    (s.status ≠ .running → s.ticks n = s)

/-! ### Memory transfers -/

/-- R230 (D14, log 15): LD B stores the hundreds, tens and ones of `Vx` at `I`, `I + 1`, `I + 2`. -/
def Obligations.BcdStoresDigits : Prop :=
  ∀ (x : Reg) (s : State), Memory.wf s.mem = true → s.i.toNat + 2 ≤ 0x0FFF →
    ∃ t, exec (.ldB x) s = .next t ∧ t = { s with mem := t.mem, pc := s.pc + 2 } ∧
      (Memory.get t.mem s.i.toNat).toNat = (s.reg x).toNat / 100 ∧
      (Memory.get t.mem (s.i.toNat + 1)).toNat = (s.reg x).toNat / 10 % 10 ∧
      (Memory.get t.mem (s.i.toNat + 2)).toNat = (s.reg x).toNat % 10 ∧
      ∀ a, a < s.i.toNat ∨ s.i.toNat + 2 < a → Memory.get t.mem a = Memory.get s.mem a

/-- R231, R233: LD [I], Vx stores `V[0]` to `V[x]`, register `V[r]` at `I + r`; `I` and the registers are unchanged. -/
def Obligations.StoreRegisters : Prop :=
  ∀ (x : Reg) (s : State), Memory.wf s.mem = true → s.i.toNat + x.val ≤ 0x0FFF →
    ∃ t, exec (.stRegs x) s = .next t ∧ t = { s with mem := t.mem, pc := s.pc + 2 } ∧
      (∀ r, r ≤ x → Memory.get t.mem (s.i.toNat + r.val) = s.reg r) ∧
      ∀ a, a < s.i.toNat ∨ s.i.toNat + x.val < a → Memory.get t.mem a = Memory.get s.mem a

/-- R232, R233: LD Vx, [I] loads `V[0]` to `V[x]`; the registers above `V[x]`, `I` and memory are unchanged. -/
def Obligations.LoadRegisters : Prop :=
  ∀ (x : Reg) (s : State), s.i.toNat + x.val ≤ 0x0FFF →
    ∃ t, exec (.ldRegs x) s = .next t ∧ t = { s with v := t.v, pc := s.pc + 2 } ∧
      (∀ r, r ≤ x → t.reg r = Memory.get s.mem (s.i.toNat + r.val)) ∧ ∀ r, x < r → t.reg r = s.reg r

/-! ### Frames over every instruction -/

/-- R21, R22: no instruction changes a general register but those it is listed as writing; VF is changed only by the flag
writers and by an instruction that names it. -/
def Obligations.RegistersFrame : Prop :=
  ∀ (i : Instr) (s t : State) (r : Reg), exec i s = .next t → writesReg i r = false → t.reg r = s.reg r

/-- R23, R25, R26, R27: `I` is written by Annn, Fx1E and Fx29 only, the stack by 2nnn and 00EE only, `DT` by Fx15 only, `ST` by
Fx18 only; and no instruction changes the model's own input fields (log 3). -/
def Obligations.SpecialRegistersFrame : Prop :=
  ∀ (i : Instr) (s t : State), exec i s = .next t →
    (writesIndex i = false → t.i = s.i) ∧
    (i ≠ .ret → (∀ nnn, i ≠ .call nnn) → t.sp = s.sp) ∧ ((∀ nnn, i ≠ .call nnn) → t.stack = s.stack) ∧
    ((∀ x, i ≠ .ldDT x) → t.dt = s.dt) ∧ ((∀ x, i ≠ .ldST x) → t.st = s.st) ∧
    t.inputs = s.inputs ∧ t.now = s.now ∧ t.cycles = s.cycles

/-- R66, R74: every byte outside the stored ones reads as before: three from `I` for Fx33, `x + 1` from `I` for Fx55, none for
any other instruction. -/
def Obligations.MemoryFrame : Prop :=
  ∀ (i : Instr) (s t : State) (a : Nat), exec i s = .next t →
    (a < s.i.toNat ∨ s.i.toNat + storeLength i ≤ a) → Memory.get t.mem a = Memory.get s.mem a

/-- R29, R199 (D16): the frame buffer is written, and a render event emitted, by 00E0 and Dxyn only; an execution of one of
these that does not fault emits exactly one event, the frame buffer as it leaves it. -/
def Obligations.DisplayFrame : Prop :=
  ∀ (i : Instr) (s t : State), exec i s = .next t →
    (writesDisplay i = false → t.fb = s.fb ∧ t.renders = s.renders) ∧
    (writesDisplay i = true → s.status = .running → t.status = .running → t.renders = s.renders ++ [t.fb])

/-- R129, R240, R243, R244, R249 (D4, D9, D10): an instruction makes at most the one check it has; where the check fails, only
`STATUS` and `FAULT` change, and `FAULT` holds the cause, the instruction's address, its word and the lowest offending address;
where it does not, both stay as they are. The bounds on `SP` and `I` are those of R42. -/
def Obligations.ExecuteStageFaults : Prop :=
  ∀ (i : Instr) (s : State), s.sp.toNat ≤ 16 → s.i.toNat ≤ 0x0FFF →
    match executeFault i s with
    | some (cause, addr) =>
      ∃ t, exec i s = .next t ∧ t = { s with status := .faulted, faultRec := t.faultRec } ∧
        t.faultRec.cause = cause ∧ t.faultRec.pc = s.pc ∧ t.faultRec.instr = encode i ∧ t.faultRec.addr.toNat = addr
    | none => ∃ t, exec i s = .next t ∧ t.status = s.status ∧ t.faultRec = s.faultRec

/-- R120, R249, over all states: every instruction and every step of the machine answers a next state; none ends the model.
Outside Running, where R120 enables no cycle, that the step answers a state is the MODEL'S CHOICE (log 6); so is what RET and
CALL answer with `SP` above 16 and an access with `I` above 0x0FFF, states that R42 rules out (log 7). -/
def Obligations.EveryStepAnswersNext : Prop :=
  (∀ (i : Instr) (s : State), ∃ t, exec i s = .next t) ∧ ∀ s : State, ∃ t, step s = .next t

/-- R32: an instruction cannot observe `ST`, `STATUS` or `FAULT`: whatever these hold, it leaves everything else the same. -/
def Obligations.SoundTimerStatusFaultUnobserved : Prop :=
  ∀ (i : Instr) (s t t' : State) (st : Byte) (status : Status) (faultRec : FaultRecord), exec i s = .next t →
    exec i { s with st := st, status := status, faultRec := faultRec } = .next t' →
    t' = { t with st := t'.st, status := t'.status, faultRec := t'.faultRec }

/-! ### The cycle -/

/-- R125, R130, R248 (D25): when the stop bit is clear and the word at `PC` decodes and is no self-jump, the step is the execute
stage of that instruction at the start of the cycle. In EVERY state the start of the cycle differs from the state before it in
the ticks applied and in the model's own input fields only (log 3); so "nothing else changed" of the statements below, said
against `s.beginCycle`, reaches the state before the cycle. -/
def Obligations.StepRunsDecodedInstruction : Prop :=
  (∀ (s : State) (w : Word) (i : Instr), s.status = .running → s.nextInput.stop = false →
    Memory.readWord s.mem s.pc.toNat = .ok w → ¬ (w.toNat / 0x1000 = 0x1 ∧ w.toNat % 0x1000 = s.pc.toNat) →
    decode w = .ok i → step s = exec i s.beginCycle) ∧
  ∀ s : State,
    s.beginCycle = { s with dt := (s.ticks s.nextInput.ticks).dt, st := (s.ticks s.nextInput.ticks).st,
                            inputs := s.inputs.tail, now := s.nextInput, cycles := s.cycles + 1 }

/-- R121, R252, R129 (D10, D17): an asserted stop bit ends the cycle before the fetch, whatever stands at `PC`. -/
def Obligations.StopEndsTheCycle : Prop :=
  ∀ s : State, s.status = .running → s.nextInput.stop = true →
    step s = .next { s.beginCycle with status := .stopped }

/-- R122, R244 (D5): a fetch from above 0x0FFE faults with the lowest out-of-range address and no instruction word. -/
def Obligations.FetchOutOfBoundsFaults : Prop :=
  ∀ s : State, s.status = .running → s.nextInput.stop = false → s.pc.toNat > 0x0FFE →
    ∃ t, step s = .next t ∧ t = { s.beginCycle with status := .faulted, faultRec := t.faultRec } ∧
      t.faultRec.cause.code = 4 ∧ t.faultRec.pc = s.pc ∧ t.faultRec.instr = 0 ∧
      t.faultRec.addr.toNat = if s.pc.toNat = 0x0FFF then 0x1000 else s.pc.toNat

/-- R123, R251 (D18): a fetched 1nnn whose target is its own address halts; nothing else changes. -/
def Obligations.SelfJumpHalts : Prop :=
  ∀ (s : State) (w : Word), s.status = .running → s.nextInput.stop = false →
    Memory.readWord s.mem s.pc.toNat = .ok w → w.toNat / 0x1000 = 0x1 → w.toNat % 0x1000 = s.pc.toNat →
    step s = .next { s.beginCycle with status := .halted }

/-- R123, R131: nothing but the 1nnn self-jump halts the engine. -/
def Obligations.OnlySelfJumpHalts : Prop :=
  ∀ s t : State, s.status = .running → step s = .next t → t.status = .halted →
    s.nextInput.stop = false ∧
    ∃ w, Memory.readWord s.mem s.pc.toNat = .ok w ∧ w.toNat / 0x1000 = 0x1 ∧ w.toNat % 0x1000 = s.pc.toNat

/-- R241, R125, R249 (D4, D9): a fetched word that matches no row of the opcode map is `UnknownOpcode`, with the word and its
address. -/
def Obligations.UnknownOpcodeFaults : Prop :=
  ∀ (s : State) (w : Word), s.status = .running → s.nextInput.stop = false →
    Memory.readWord s.mem s.pc.toNat = .ok w → wellFormedWord w = false →
    ∃ t, step s = .next t ∧ t = { s.beginCycle with status := .faulted, faultRec := t.faultRec } ∧
      t.faultRec.cause.code = 1 ∧ t.faultRec.pc = s.pc ∧ t.faultRec.instr = w ∧ t.faultRec.addr = 0

/-- R128, R249 (D4, log 10): a step that faults changes `STATUS` and `FAULT` only, after the boundary of the cycle; `FAULT.pc` is
the address of the faulting instruction. Which fault is raised with `SP` or `I` outside R42 is the model's choice (log 7). -/
def Obligations.FaultsArePrecise : Prop :=
  ∀ s t : State, s.status = .running → step s = .next t → t.status = .faulted →
    t = { s.beginCycle with status := .faulted, faultRec := t.faultRec } ∧
    t.faultRec.cause ≠ .none ∧ t.faultRec.pc = s.pc

/-- R30, R250, R259 (D8; that the model's step then answers the same state is log 6): outside Running nothing changes any more,
by no number of steps and no number of ticks. -/
def Obligations.FinalStatesAreFrozen : Prop :=
  ∀ (s : State) (k : Nat), s.status ≠ .running → Host.Core.run core k s = .next s ∧ s.ticks k = s

/-! ### The invariant -/

/-- R42: every step keeps the invariant, from every state that meets it. -/
def Obligations.StepKeepsInvariant : Prop :=
  ∀ s t : State, s.Inv → step s = .next t → t.Inv

/-- R42, R131: every state that a launch leads to, with any font and program image, meets the invariant. That the environment
settles the inputs of the coming cycles between steps (`Reachable.schedule`) is the model's form of the open schedules and
oracles (log 3). -/
def Obligations.ReachableStatesMeetInvariant : Prop :=
  ∀ s : State, Reachable s → s.Inv
end

