-- ==== Sys2Proof/Laws/Memory.lean ====
section
/-! SUPPORT. Laws of memory: read after write, the canonical form, and what the checked accesses answer. -/

namespace Sys2Proof.Machine

theorem Memory.wfFrom_cons {lo : Nat} {c : Host.Cell} {m : Memory} :
    Memory.wfFrom lo (c :: m) = true ↔
      lo ≤ c.1 ∧ c.1 < 4096 ∧ c.2 ≠ Memory.unlisted c.1 ∧ Memory.wfFrom (c.1 + 1) m = true := by
  simp [Memory.wfFrom, and_assoc]

theorem Memory.wfFrom_mono {lo lo' : Nat} {m : Memory} (h : Memory.wfFrom lo m = true) (hle : lo' ≤ lo) :
    Memory.wfFrom lo' m = true := by
  cases m with
  | nil => rfl
  | cons c rest =>
    rw [Memory.wfFrom_cons] at h ⊢
    exact ⟨hle.trans h.1, h.2⟩

/-- An address below every listed one reads as unlisted. -/
theorem Memory.get_of_lt {lo a : Nat} {m : Memory} (h : Memory.wfFrom lo m = true) (ha : a < lo) :
    Memory.get m a = Memory.unlisted a := by
  induction m generalizing lo with
  | nil => rfl
  | cons c rest ih =>
    rw [Memory.wfFrom_cons] at h
    rw [Memory.get, if_neg (by omega)]
    exact ih h.2.2.2 (by omega)

theorem Memory.get_cons (c : Host.Cell) (m : Memory) (a : Nat) :
    Memory.get (c :: m) a = if c.1 = a then c.2 else Memory.get m a := rfl

/-- A write leaves every other address alone, in any memory. -/
theorem Memory.get_set_ne (m : Memory) {a c : Nat} (b : Byte) (h : c ≠ a) :
    Memory.get (Memory.set m a b) c = Memory.get m c := by
  induction m with
  | nil =>
    rw [Memory.set]
    split
    · rfl
    · rw [Memory.get_cons, if_neg (Ne.symm h)]
  | cons d rest ih =>
    rw [Memory.set]
    split
    · rw [Memory.get_cons, Memory.get_cons, ih]
    · have key : Memory.get (if d.1 = a then rest else d :: rest) c = Memory.get (d :: rest) c := by
        split
        · next hd => rw [Memory.get_cons, if_neg (by omega)]
        · rfl
      dsimp only
      split
      · exact key
      · rw [Memory.get_cons, if_neg (Ne.symm h), key]

/-- A read after a write to the same address gives the byte written. -/
theorem Memory.get_set_self {lo : Nat} {m : Memory} (hm : Memory.wfFrom lo m = true) (a : Nat) (b : Byte) :
    Memory.get (Memory.set m a b) a = b := by
  induction m generalizing lo with
  | nil =>
    rw [Memory.set]
    split
    · next h => exact h.symm
    · rw [Memory.get_cons, if_pos rfl]
  | cons d rest ih =>
    rw [Memory.wfFrom_cons] at hm
    rw [Memory.set]
    split
    · next h => rw [Memory.get_cons, if_neg (by omega), ih hm.2.2.2]
    · next h =>
      dsimp only
      split
      · next hb =>
        rw [hb]
        split
        · next hd => exact Memory.get_of_lt hm.2.2.2 (by omega)
        · next hd => rw [Memory.get_cons, if_neg hd]; exact Memory.get_of_lt hm.2.2.2 (by omega)
      · rw [Memory.get_cons, if_pos rfl]

theorem Memory.wfFrom_set {lo : Nat} {m : Memory} (hm : Memory.wfFrom lo m = true) {a : Nat} (ha : a < 4096) (hlo : lo ≤ a)
    (b : Byte) : Memory.wfFrom lo (Memory.set m a b) = true := by
  induction m generalizing lo with
  | nil =>
    rw [Memory.set]
    split
    · rfl
    · next h => exact Memory.wfFrom_cons.2 ⟨hlo, ha, h, rfl⟩
  | cons d rest ih =>
    have hd := Memory.wfFrom_cons.1 hm
    rw [Memory.set]
    split
    · next h => exact Memory.wfFrom_cons.2 ⟨hd.1, hd.2.1, hd.2.2.1, ih hd.2.2.2 (by omega)⟩
    · next h =>
      have key : Memory.wfFrom (a + 1) (if d.1 = a then rest else d :: rest) = true := by
        split
        · next e => rw [← e]; exact hd.2.2.2
        · next e => exact Memory.wfFrom_cons.2 ⟨by omega, hd.2⟩
      dsimp only
      split
      · exact Memory.wfFrom_mono key (by omega)
      · next hb => exact Memory.wfFrom_cons.2 ⟨hlo, ha, hb, key⟩

/-- A write below 4096 keeps the canonical form. -/
theorem Memory.wf_set {m : Memory} (hm : Memory.wf m = true) {a : Nat} (ha : a < 4096) (b : Byte) :
    Memory.wf (Memory.set m a b) = true :=
  Memory.wfFrom_set hm ha (Nat.zero_le a) b

/-- Consecutive writes below 4096 keep the canonical form. -/
theorem Memory.wf_setBytes {m : Memory} (hm : Memory.wf m = true) {a : Nat} {bs : List Byte} (h : a + bs.length ≤ 4096) :
    Memory.wf (Memory.setBytes m a bs) = true := by
  induction bs generalizing m a with
  | nil => exact hm
  | cons b bs ih =>
    rw [List.length_cons] at h
    exact ih (Memory.wf_set hm (by omega) b) (by omega)

/-- Consecutive writes leave every address outside their range alone, in any memory. -/
theorem Memory.get_setBytes_outside (m : Memory) {a c : Nat} {bs : List Byte} (h : c < a ∨ a + bs.length ≤ c) :
    Memory.get (Memory.setBytes m a bs) c = Memory.get m c := by
  induction bs generalizing m a with
  | nil => rfl
  | cons b bs ih =>
    rw [List.length_cons] at h
    rw [Memory.setBytes, ih (Memory.set m a b) (by omega), Memory.get_set_ne m b (by omega)]

/-- Byte `k` of consecutive writes is what its address reads as afterwards. -/
theorem Memory.get_setBytes_inside {m : Memory} (hm : Memory.wf m = true) {a k : Nat} {bs : List Byte}
    (hk : k < bs.length) (h : a + bs.length ≤ 4096) : Memory.get (Memory.setBytes m a bs) (a + k) = bs[k] := by
  induction bs generalizing m a k with
  | nil => exact absurd hk (Nat.not_lt_zero k)
  | cons b bs ih =>
    rw [List.length_cons] at h hk
    rw [Memory.setBytes]
    cases k with
    | zero =>
      rw [Memory.get_setBytes_outside _ (by omega)]
      exact Memory.get_set_self hm a b
    | succ k =>
      have := ih (Memory.wf_set hm (by omega : a < 4096) b) (a := a + 1) (k := k) (by omega) (by omega)
      rw [show a + (k + 1) = a + 1 + k by omega, this, List.getElem_cons_succ]

theorem Memory.length_getBytes (m : Memory) (a n : Nat) : (Memory.getBytes m a n).length = n := by
  induction n generalizing a with
  | zero => rfl
  | succ n ih => rw [Memory.getBytes, List.length_cons, ih]

theorem Memory.getElem_getBytes (m : Memory) {a n k : Nat} (hk : k < (Memory.getBytes m a n).length) :
    (Memory.getBytes m a n)[k] = Memory.get m (a + k) := by
  induction n generalizing a k with
  | zero => exact absurd hk (Nat.not_lt_zero k)
  | succ n ih =>
    cases k with
    | zero => rfl
    | succ k => simp only [Memory.getBytes, List.getElem_cons_succ]; rw [ih]; congr 1; omega

theorem outOfBounds_eq_none {a n : Nat} : outOfBounds a n = none ↔ n = 0 ∨ a + n ≤ 4096 := by
  unfold outOfBounds; split <;> simp <;> omega

theorem outOfBounds_eq_some {a n bad : Nat} :
    outOfBounds a n = some bad ↔ n ≠ 0 ∧ 4096 < a + n ∧ bad = max a 0x1000 := by
  unfold outOfBounds; split
  · simp only [Option.some.injEq]; omega
  · simp only [reduceCtorEq, false_iff]; omega

/-- What a checked read can answer. -/
theorem Memory.read_eq_ok {m : Memory} {a n : Nat} {bs : List Byte} :
    Memory.read m a n = .ok bs ↔ (n = 0 ∨ a + n ≤ 4096) ∧ bs = Memory.getBytes m a n := by
  rw [← outOfBounds_eq_none, Memory.read]
  split <;> rename_i h <;> simp [h, eq_comm]

theorem Memory.read_eq_error {m : Memory} {a n bad : Nat} :
    Memory.read m a n = .error bad ↔ n ≠ 0 ∧ 4096 < a + n ∧ bad = max a 0x1000 := by
  rw [← outOfBounds_eq_some, Memory.read]
  split <;> rename_i h <;> simp [h]

/-- What a checked write can answer. -/
theorem Memory.write_eq_ok {m m' : Memory} {a : Nat} {bs : List Byte} :
    Memory.write m a bs = .ok m' ↔ (bs.length = 0 ∨ a + bs.length ≤ 4096) ∧ m' = Memory.setBytes m a bs := by
  rw [← outOfBounds_eq_none, Memory.write]
  split <;> rename_i h <;> simp [h, eq_comm]

theorem Memory.write_eq_error {m : Memory} {a bad : Nat} {bs : List Byte} :
    Memory.write m a bs = .error bad ↔ bs.length ≠ 0 ∧ 4096 < a + bs.length ∧ bad = max a 0x1000 := by
  rw [← outOfBounds_eq_some, Memory.write]
  split <;> rename_i h <;> simp [h]

/-- A checked write keeps the canonical form. -/
theorem Memory.wf_write {m m' : Memory} {a : Nat} {bs : List Byte} (hm : Memory.wf m = true)
    (h : Memory.write m a bs = .ok m') : Memory.wf m' = true := by
  obtain ⟨hb, rfl⟩ := Memory.write_eq_ok.1 h
  rcases hb with hb | hb
  · rw [List.length_eq_zero_iff.1 hb]; exact hm
  · exact Memory.wf_setBytes hm hb

/-- What the fetch's read can answer. -/
theorem Memory.readWord_eq_ok {m : Memory} {a : Nat} {w : Word} :
    Memory.readWord m a = .ok w ↔ a ≤ 0xFFE ∧ w = wordOfBytes (Memory.get m a) (Memory.get m (a + 1)) := by
  rw [Memory.readWord]
  split <;> rename_i h
  · simp only [reduceCtorEq, false_iff]; rw [outOfBounds_eq_some] at h; omega
  · rw [outOfBounds_eq_none] at h
    simp only [Except.ok.injEq, eq_comm]
    constructor
    · intro e; exact ⟨by omega, e⟩
    · exact And.right

theorem Memory.readWord_eq_error {m : Memory} {a bad : Nat} :
    Memory.readWord m a = .error bad ↔ 0xFFE < a ∧ bad = max a 0x1000 := by
  rw [Memory.readWord]
  split <;> rename_i h
  · rw [outOfBounds_eq_some] at h; simp only [Except.error.injEq]; omega
  · rw [outOfBounds_eq_none] at h; simp only [reduceCtorEq, false_iff]; omega

/-- Two memories in canonical form that read the same everywhere are the same data. -/
theorem Memory.ext_of_wf {lo : Nat} {m m' : Memory} (hm : Memory.wfFrom lo m = true) (hm' : Memory.wfFrom lo m' = true)
    (h : ∀ a, Memory.get m a = Memory.get m' a) : m = m' := by
  induction m generalizing m' lo with
  | nil =>
    cases m' with
    | nil => rfl
    | cons d rest' =>
      have hd := (Memory.wfFrom_cons.1 hm').2.2.1
      have := h d.1
      rw [Memory.get_cons, if_pos rfl] at this
      exact absurd this.symm hd
  | cons c rest ih =>
    have hc := Memory.wfFrom_cons.1 hm
    cases m' with
    | nil =>
      have := h c.1
      rw [Memory.get_cons, if_pos rfl] at this
      exact absurd this hc.2.2.1
    | cons d rest' =>
      have hd := Memory.wfFrom_cons.1 hm'
      have hkey : c.1 = d.1 := by
        rcases Nat.lt_trichotomy c.1 d.1 with hlt | he | hlt
        · have := h c.1
          rw [Memory.get_cons, if_pos rfl, Memory.get_cons, if_neg (by omega),
            Memory.get_of_lt hd.2.2.2 (by omega)] at this
          exact absurd this hc.2.2.1
        · exact he
        · have := h d.1
          rw [Memory.get_cons, if_neg (by omega), Memory.get_cons, if_pos rfl,
            Memory.get_of_lt hc.2.2.2 (by omega)] at this
          exact absurd this.symm hd.2.2.1
      have hval : c.2 = d.2 := by
        have := h c.1
        rwa [Memory.get_cons, if_pos rfl, Memory.get_cons, if_pos hkey.symm] at this
      have hrest : rest = rest' := by
        refine ih hc.2.2.2 (hkey ▸ hd.2.2.2) fun a => ?_
        by_cases ha : a ≤ c.1
        · rw [Memory.get_of_lt hc.2.2.2 (by omega), Memory.get_of_lt hd.2.2.2 (by omega)]
        · have := h a
          rwa [Memory.get_cons, if_neg (by omega), Memory.get_cons, if_neg (by omega)] at this
      rw [hrest, Prod.ext hkey hval]

end Sys2Proof.Machine
end

