-- ==== Sys2Proof/Laws/State.lean ====
section
/-! SUPPORT. What each state update does to each field, one lemma a field, so that no proof unfolds an update; and the register
reads after them. -/

namespace Sys2Proof.Machine

/-! ### `State.setReg` -/

@[simp] theorem State.setReg_v (s : State) (r : Reg) (b : Byte) : (s.setReg r b).v = s.v.set r b := rfl
@[simp] theorem State.setReg_i (s : State) (r : Reg) (b : Byte) : (s.setReg r b).i = s.i := rfl
@[simp] theorem State.setReg_pc (s : State) (r : Reg) (b : Byte) : (s.setReg r b).pc = s.pc := rfl
@[simp] theorem State.setReg_sp (s : State) (r : Reg) (b : Byte) : (s.setReg r b).sp = s.sp := rfl
@[simp] theorem State.setReg_stack (s : State) (r : Reg) (b : Byte) : (s.setReg r b).stack = s.stack := rfl
@[simp] theorem State.setReg_dt (s : State) (r : Reg) (b : Byte) : (s.setReg r b).dt = s.dt := rfl
@[simp] theorem State.setReg_st (s : State) (r : Reg) (b : Byte) : (s.setReg r b).st = s.st := rfl
@[simp] theorem State.setReg_mem (s : State) (r : Reg) (b : Byte) : (s.setReg r b).mem = s.mem := rfl
@[simp] theorem State.setReg_fb (s : State) (r : Reg) (b : Byte) : (s.setReg r b).fb = s.fb := rfl
@[simp] theorem State.setReg_status (s : State) (r : Reg) (b : Byte) : (s.setReg r b).status = s.status := rfl
@[simp] theorem State.setReg_faultRec (s : State) (r : Reg) (b : Byte) : (s.setReg r b).faultRec = s.faultRec := rfl
@[simp] theorem State.setReg_renders (s : State) (r : Reg) (b : Byte) : (s.setReg r b).renders = s.renders := rfl
@[simp] theorem State.setReg_inputs (s : State) (r : Reg) (b : Byte) : (s.setReg r b).inputs = s.inputs := rfl
@[simp] theorem State.setReg_now (s : State) (r : Reg) (b : Byte) : (s.setReg r b).now = s.now := rfl
@[simp] theorem State.setReg_cycles (s : State) (r : Reg) (b : Byte) : (s.setReg r b).cycles = s.cycles := rfl

/-! ### `State.setFlagThenReg` -/

@[simp] theorem State.setFlagThenReg_v (s : State) (f : Byte) (r : Reg) (b : Byte) : (s.setFlagThenReg f r b).v = (s.v.set VF f).set r b := rfl
@[simp] theorem State.setFlagThenReg_i (s : State) (f : Byte) (r : Reg) (b : Byte) : (s.setFlagThenReg f r b).i = s.i := rfl
@[simp] theorem State.setFlagThenReg_pc (s : State) (f : Byte) (r : Reg) (b : Byte) : (s.setFlagThenReg f r b).pc = s.pc := rfl
@[simp] theorem State.setFlagThenReg_sp (s : State) (f : Byte) (r : Reg) (b : Byte) : (s.setFlagThenReg f r b).sp = s.sp := rfl
@[simp] theorem State.setFlagThenReg_stack (s : State) (f : Byte) (r : Reg) (b : Byte) : (s.setFlagThenReg f r b).stack = s.stack := rfl
@[simp] theorem State.setFlagThenReg_dt (s : State) (f : Byte) (r : Reg) (b : Byte) : (s.setFlagThenReg f r b).dt = s.dt := rfl
@[simp] theorem State.setFlagThenReg_st (s : State) (f : Byte) (r : Reg) (b : Byte) : (s.setFlagThenReg f r b).st = s.st := rfl
@[simp] theorem State.setFlagThenReg_mem (s : State) (f : Byte) (r : Reg) (b : Byte) : (s.setFlagThenReg f r b).mem = s.mem := rfl
@[simp] theorem State.setFlagThenReg_fb (s : State) (f : Byte) (r : Reg) (b : Byte) : (s.setFlagThenReg f r b).fb = s.fb := rfl
@[simp] theorem State.setFlagThenReg_status (s : State) (f : Byte) (r : Reg) (b : Byte) : (s.setFlagThenReg f r b).status = s.status := rfl
@[simp] theorem State.setFlagThenReg_faultRec (s : State) (f : Byte) (r : Reg) (b : Byte) : (s.setFlagThenReg f r b).faultRec = s.faultRec := rfl
@[simp] theorem State.setFlagThenReg_renders (s : State) (f : Byte) (r : Reg) (b : Byte) : (s.setFlagThenReg f r b).renders = s.renders := rfl
@[simp] theorem State.setFlagThenReg_inputs (s : State) (f : Byte) (r : Reg) (b : Byte) : (s.setFlagThenReg f r b).inputs = s.inputs := rfl
@[simp] theorem State.setFlagThenReg_now (s : State) (f : Byte) (r : Reg) (b : Byte) : (s.setFlagThenReg f r b).now = s.now := rfl
@[simp] theorem State.setFlagThenReg_cycles (s : State) (f : Byte) (r : Reg) (b : Byte) : (s.setFlagThenReg f r b).cycles = s.cycles := rfl

/-! ### `State.advance` -/

@[simp] theorem State.advance_v (s : State) : (s.advance).v = s.v := rfl
@[simp] theorem State.advance_i (s : State) : (s.advance).i = s.i := rfl
@[simp] theorem State.advance_pc (s : State) : (s.advance).pc = s.pc + 2 := rfl
@[simp] theorem State.advance_sp (s : State) : (s.advance).sp = s.sp := rfl
@[simp] theorem State.advance_stack (s : State) : (s.advance).stack = s.stack := rfl
@[simp] theorem State.advance_dt (s : State) : (s.advance).dt = s.dt := rfl
@[simp] theorem State.advance_st (s : State) : (s.advance).st = s.st := rfl
@[simp] theorem State.advance_mem (s : State) : (s.advance).mem = s.mem := rfl
@[simp] theorem State.advance_fb (s : State) : (s.advance).fb = s.fb := rfl
@[simp] theorem State.advance_status (s : State) : (s.advance).status = s.status := rfl
@[simp] theorem State.advance_faultRec (s : State) : (s.advance).faultRec = s.faultRec := rfl
@[simp] theorem State.advance_renders (s : State) : (s.advance).renders = s.renders := rfl
@[simp] theorem State.advance_inputs (s : State) : (s.advance).inputs = s.inputs := rfl
@[simp] theorem State.advance_now (s : State) : (s.advance).now = s.now := rfl
@[simp] theorem State.advance_cycles (s : State) : (s.advance).cycles = s.cycles := rfl
@[simp] theorem State.advance_reg (s : State) (q : Reg) : (s.advance).reg q = s.reg q := rfl

/-! ### `State.skipIf` -/

@[simp] theorem State.skipIf_v (s : State) (taken : Bool) : (s.skipIf taken).v = s.v := rfl
@[simp] theorem State.skipIf_i (s : State) (taken : Bool) : (s.skipIf taken).i = s.i := rfl
@[simp] theorem State.skipIf_pc (s : State) (taken : Bool) : (s.skipIf taken).pc = s.pc + (if taken then 4 else 2) := rfl
@[simp] theorem State.skipIf_sp (s : State) (taken : Bool) : (s.skipIf taken).sp = s.sp := rfl
@[simp] theorem State.skipIf_stack (s : State) (taken : Bool) : (s.skipIf taken).stack = s.stack := rfl
@[simp] theorem State.skipIf_dt (s : State) (taken : Bool) : (s.skipIf taken).dt = s.dt := rfl
@[simp] theorem State.skipIf_st (s : State) (taken : Bool) : (s.skipIf taken).st = s.st := rfl
@[simp] theorem State.skipIf_mem (s : State) (taken : Bool) : (s.skipIf taken).mem = s.mem := rfl
@[simp] theorem State.skipIf_fb (s : State) (taken : Bool) : (s.skipIf taken).fb = s.fb := rfl
@[simp] theorem State.skipIf_status (s : State) (taken : Bool) : (s.skipIf taken).status = s.status := rfl
@[simp] theorem State.skipIf_faultRec (s : State) (taken : Bool) : (s.skipIf taken).faultRec = s.faultRec := rfl
@[simp] theorem State.skipIf_renders (s : State) (taken : Bool) : (s.skipIf taken).renders = s.renders := rfl
@[simp] theorem State.skipIf_inputs (s : State) (taken : Bool) : (s.skipIf taken).inputs = s.inputs := rfl
@[simp] theorem State.skipIf_now (s : State) (taken : Bool) : (s.skipIf taken).now = s.now := rfl
@[simp] theorem State.skipIf_cycles (s : State) (taken : Bool) : (s.skipIf taken).cycles = s.cycles := rfl
@[simp] theorem State.skipIf_reg (s : State) (taken : Bool) (q : Reg) : (s.skipIf taken).reg q = s.reg q := rfl

/-! ### `State.raise` -/

@[simp] theorem State.raise_v (s : State) (c : Cause) (w a : Word) : (s.raise c w a).v = s.v := rfl
@[simp] theorem State.raise_i (s : State) (c : Cause) (w a : Word) : (s.raise c w a).i = s.i := rfl
@[simp] theorem State.raise_pc (s : State) (c : Cause) (w a : Word) : (s.raise c w a).pc = s.pc := rfl
@[simp] theorem State.raise_sp (s : State) (c : Cause) (w a : Word) : (s.raise c w a).sp = s.sp := rfl
@[simp] theorem State.raise_stack (s : State) (c : Cause) (w a : Word) : (s.raise c w a).stack = s.stack := rfl
@[simp] theorem State.raise_dt (s : State) (c : Cause) (w a : Word) : (s.raise c w a).dt = s.dt := rfl
@[simp] theorem State.raise_st (s : State) (c : Cause) (w a : Word) : (s.raise c w a).st = s.st := rfl
@[simp] theorem State.raise_mem (s : State) (c : Cause) (w a : Word) : (s.raise c w a).mem = s.mem := rfl
@[simp] theorem State.raise_fb (s : State) (c : Cause) (w a : Word) : (s.raise c w a).fb = s.fb := rfl
@[simp] theorem State.raise_status (s : State) (c : Cause) (w a : Word) : (s.raise c w a).status = .faulted := rfl
@[simp] theorem State.raise_faultRec (s : State) (c : Cause) (w a : Word) : (s.raise c w a).faultRec = { cause := c, pc := s.pc, instr := w, addr := a } := rfl
@[simp] theorem State.raise_renders (s : State) (c : Cause) (w a : Word) : (s.raise c w a).renders = s.renders := rfl
@[simp] theorem State.raise_inputs (s : State) (c : Cause) (w a : Word) : (s.raise c w a).inputs = s.inputs := rfl
@[simp] theorem State.raise_now (s : State) (c : Cause) (w a : Word) : (s.raise c w a).now = s.now := rfl
@[simp] theorem State.raise_cycles (s : State) (c : Cause) (w a : Word) : (s.raise c w a).cycles = s.cycles := rfl
@[simp] theorem State.raise_reg (s : State) (c : Cause) (w a : Word) (q : Reg) : (s.raise c w a).reg q = s.reg q := rfl

/-! ### `State.render` -/

@[simp] theorem State.render_v (s : State) : (s.render).v = s.v := rfl
@[simp] theorem State.render_i (s : State) : (s.render).i = s.i := rfl
@[simp] theorem State.render_pc (s : State) : (s.render).pc = s.pc := rfl
@[simp] theorem State.render_sp (s : State) : (s.render).sp = s.sp := rfl
@[simp] theorem State.render_stack (s : State) : (s.render).stack = s.stack := rfl
@[simp] theorem State.render_dt (s : State) : (s.render).dt = s.dt := rfl
@[simp] theorem State.render_st (s : State) : (s.render).st = s.st := rfl
@[simp] theorem State.render_mem (s : State) : (s.render).mem = s.mem := rfl
@[simp] theorem State.render_fb (s : State) : (s.render).fb = s.fb := rfl
@[simp] theorem State.render_status (s : State) : (s.render).status = s.status := rfl
@[simp] theorem State.render_faultRec (s : State) : (s.render).faultRec = s.faultRec := rfl
@[simp] theorem State.render_renders (s : State) : (s.render).renders = s.renders ++ [s.fb] := rfl
@[simp] theorem State.render_inputs (s : State) : (s.render).inputs = s.inputs := rfl
@[simp] theorem State.render_now (s : State) : (s.render).now = s.now := rfl
@[simp] theorem State.render_cycles (s : State) : (s.render).cycles = s.cycles := rfl
@[simp] theorem State.render_reg (s : State) (q : Reg) : (s.render).reg q = s.reg q := rfl

/-! ### Register reads -/

/-- A register reads what was last written to it, and a write leaves the others alone (R20). -/
@[simp] theorem State.setReg_reg (s : State) (r : Reg) (b : Byte) (q : Reg) :
    (s.setReg r b).reg q = if q = r then b else s.reg q := by
  simp only [State.reg, State.setReg_v, Fin.getElem_fin, Vector.getElem_set, Fin.ext_iff, eq_comm]

/-- The result is written last, so it stays when `x` is VF (R160). -/
@[simp] theorem State.setFlagThenReg_reg (s : State) (f : Byte) (r : Reg) (b : Byte) (q : Reg) :
    (s.setFlagThenReg f r b).reg q = if q = r then b else if q = VF then f else s.reg q := by
  rw [State.setFlagThenReg, State.setReg_reg, State.setReg_reg]

/-- An instruction's out-of-bounds fault is a `raise` with its own word. -/
theorem State.raiseBounds_eq (s : State) (i : Instr) (a : Nat) :
    s.raiseBounds i a = s.raise .outOfBoundsAccess (encode i) (BitVec.ofNat 16 a) := rfl

/-- Register `r` after Fx65 has the byte its place in the list gives, or is untouched beyond the list (R232). -/
theorem loadRegs_getElem (v : Vector Byte 16) (bs : List Byte) (r : Reg) : (loadRegs v bs)[r] = bs.getD r.val v[r] := by
  simp [loadRegs]

/-- Entry `k` of the registers stored by Fx55 is `V[k]` (R231). -/
theorem State.regsUpTo_getElem (s : State) (x : Reg) {k : Nat} (hk : k < (s.regsUpTo x).length) (h16 : k < 16) :
    (s.regsUpTo x)[k] = s.reg ⟨k, h16⟩ := by
  simp [State.regsUpTo, State.reg]

/-- Fx55 stores `x + 1` bytes (R231). -/
@[simp] theorem State.length_regsUpTo (s : State) (x : Reg) : (s.regsUpTo x).length = x.val + 1 := by
  simp only [State.regsUpTo, List.length_take, Vector.length_toList]; omega

/-- Fx33 stores three bytes (R230). -/
@[simp] theorem length_bcdDigits (b : Byte) : (bcdDigits b).length = 3 := rfl

end Sys2Proof.Machine
end

