-- ==== Sys2Proof/Laws/Cycle.lean ====
section
/-! SUPPORT. What ticks, the boundary of a cycle, the shared store and the stages of a cycle can do, said once. -/

namespace Sys2Proof.Machine

/-! ### Ticks -/

theorem State.tick_of_running {s : State} (h : s.status = .running) :
    s.tick = { s with dt := tickTimer s.dt, st := tickTimer s.st } := if_pos h

theorem State.tick_of_not_running {s : State} (h : s.status ≠ .running) : s.tick = s := if_neg h

/-- Ticks change nothing but the two timers. -/
theorem State.ticks_eq (s : State) (n : Nat) : s.ticks n = { s with dt := (s.ticks n).dt, st := (s.ticks n).st } := by
  induction n generalizing s with
  | zero => rfl
  | succ n ih =>
    rw [State.ticks, ih]
    by_cases h : s.status = .running
    · rw [State.tick_of_running h]
    · rw [State.tick_of_not_running h]

/-- One tick takes one from a timer that is not zero. -/
theorem toNat_tickTimer (t : Byte) : (tickTimer t).toNat = t.toNat - 1 := by
  unfold tickTimer; split
  · next h => rw [h]; rfl
  · next h => bv_omega

/-! ### The boundary of a cycle -/

/-- Taking the inputs of a cycle changes the two timers and the model's own input fields, nothing else. -/
theorem State.beginCycle_eq (s : State) :
    s.beginCycle = { s with dt := (s.ticks s.nextInput.ticks).dt, st := (s.ticks s.nextInput.ticks).st,
                            inputs := s.inputs.tail, now := s.nextInput, cycles := s.cycles + 1 } := by
  rw [State.beginCycle, State.ticks_eq]

@[simp] theorem State.beginCycle_now (s : State) : s.beginCycle.now = s.nextInput := rfl
@[simp] theorem State.beginCycle_inputs (s : State) : s.beginCycle.inputs = s.inputs.tail := rfl
@[simp] theorem State.beginCycle_cycles (s : State) : s.beginCycle.cycles = s.cycles + 1 := rfl
@[simp] theorem State.beginCycle_v (s : State) : s.beginCycle.v = s.v := by rw [State.beginCycle_eq]
@[simp] theorem State.beginCycle_i (s : State) : s.beginCycle.i = s.i := by rw [State.beginCycle_eq]
@[simp] theorem State.beginCycle_pc (s : State) : s.beginCycle.pc = s.pc := by rw [State.beginCycle_eq]
@[simp] theorem State.beginCycle_sp (s : State) : s.beginCycle.sp = s.sp := by rw [State.beginCycle_eq]
@[simp] theorem State.beginCycle_stack (s : State) : s.beginCycle.stack = s.stack := by rw [State.beginCycle_eq]
@[simp] theorem State.beginCycle_mem (s : State) : s.beginCycle.mem = s.mem := by rw [State.beginCycle_eq]
@[simp] theorem State.beginCycle_fb (s : State) : s.beginCycle.fb = s.fb := by rw [State.beginCycle_eq]
@[simp] theorem State.beginCycle_status (s : State) : s.beginCycle.status = s.status := by rw [State.beginCycle_eq]
@[simp] theorem State.beginCycle_faultRec (s : State) : s.beginCycle.faultRec = s.faultRec := by rw [State.beginCycle_eq]
@[simp] theorem State.beginCycle_renders (s : State) : s.beginCycle.renders = s.renders := by rw [State.beginCycle_eq]

/-! ### The shared store -/

/-- Everything a store at `I` can do: a fault that writes nothing, or the bytes and the next `PC`. -/
theorem storeAtI_cases {i : Instr} {bs : List Byte} {s : State} {o : Host.Outcome State Fault Refusal}
    (h : storeAtI i bs s = o) :
    (bs.length ≠ 0 ∧ 4096 < s.i.toNat + bs.length ∧ o = .next (s.raiseBounds i (max s.i.toNat 0x1000))) ∨
    ((bs.length = 0 ∨ s.i.toNat + bs.length ≤ 4096) ∧
      o = .next { s with mem := Memory.setBytes s.mem s.i.toNat bs }.advance) := by
  subst h
  unfold storeAtI
  split <;> rename_i h
  · obtain ⟨h1, h2, rfl⟩ := Memory.write_eq_error.1 h
    exact .inl ⟨h1, h2, rfl⟩
  · obtain ⟨h1, rfl⟩ := Memory.write_eq_ok.1 h
    exact .inr ⟨h1, rfl⟩

/-! ### The stages of a cycle -/

/-- Everything the stages of a cycle can do (R129): stop, a fetch out of bounds, a self-jump, an unknown opcode, or the execute
stage of the fetched instruction. -/
theorem cycleStages_cases (s : State) :
    (s.now.stop = true ∧ cycleStages s = .next { s with status := .stopped }) ∨
    (s.now.stop = false ∧ 0xFFE < s.pc.toNat ∧
      cycleStages s = .next (s.raise .outOfBoundsAccess 0 (BitVec.ofNat 16 (max s.pc.toNat 0x1000)))) ∨
    ∃ w, s.now.stop = false ∧ Memory.readWord s.mem s.pc.toNat = .ok w ∧
      ((isSelfJump w s.pc = true ∧ cycleStages s = .next { s with status := .halted }) ∨
       (isSelfJump w s.pc = false ∧
         ((∃ e, decode w = .error e ∧ cycleStages s = .next (s.raise .unknownOpcode w 0)) ∨
          (∃ i, decode w = .ok i ∧ cycleStages s = exec i s)))) := by
  unfold cycleStages
  split
  · next h => exact .inl ⟨h, rfl⟩
  · next h =>
    have hstop : s.now.stop = false := by simpa using h
    refine .inr ?_
    split <;> rename_i hw
    · obtain ⟨h1, rfl⟩ := Memory.readWord_eq_error.1 hw
      exact .inl ⟨hstop, h1, rfl⟩
    · rename_i w
      refine .inr ⟨w, hstop, hw, ?_⟩
      split
      · next hj => exact .inl ⟨hj, rfl⟩
      · next hj =>
        refine .inr ⟨by simpa using hj, ?_⟩
        unfold dispatchWord
        split <;> rename_i hd
        · exact .inr ⟨_, hd, rfl⟩
        · exact .inl ⟨_, hd, rfl⟩

/-- A cycle is its stages while Running, and nothing otherwise (R30, R120). -/
theorem cycle_cases (s : State) :
    (s.status = .running ∧ cycle s = cycleStages s.beginCycle) ∨ (s.status ≠ .running ∧ cycle s = .next s) := by
  unfold cycle
  split
  · next h => exact .inl ⟨h, rfl⟩
  · next h => exact .inr ⟨h, rfl⟩

end Sys2Proof.Machine
end

