-- ==== Sys2Proof/Laws/Display.lean ====
section
/-! SUPPORT. What the frame buffer operations do, pixel by pixel. -/

namespace Sys2Proof.Machine

/-- Two frames that agree on every pixel are equal. -/
theorem Frame.ext_pixel {f g : Frame} (h : ∀ r c, Frame.pixel f r c = Frame.pixel g r c) : f = g := by
  refine Vector.ext fun r hr => Vector.ext fun c hc => ?_
  exact h ⟨r, hr⟩ ⟨c, hc⟩

@[simp] theorem Frame.pixel_clear (r : Fin 32) (c : Fin 64) : Frame.pixel Frame.clear r c = false := by
  simp [Frame.pixel, Frame.clear]

/-- A pixel reads what was last written to it, and a write leaves the others alone. -/
theorem Frame.pixel_setPixel (f : Frame) (r r' : Fin 32) (c c' : Fin 64) (b : Bool) :
    Frame.pixel (Frame.setPixel f r c b) r' c' = if r' = r ∧ c' = c then b else Frame.pixel f r' c' := by
  unfold Frame.pixel Frame.setPixel
  simp only [Fin.getElem_fin, Vector.getElem_set, Fin.ext_iff]
  by_cases hr : r.val = r'.val
  · by_cases hc : c.val = c'.val
    · simp [hr, hc]
    · simp [hr, hc, eq_comm]
  · simp [hr, eq_comm]

@[simp] theorem val_displayRow (y : Nat) : (displayRow y).val = y % 32 := rfl

@[simp] theorem val_displayColumn (x : Nat) : (displayColumn x).val = x % 64 := rfl

/-- The columns of one row of a sprite are distinct (R196). -/
theorem column_injective {startX j k : Nat} (hj : j < 8) (hk : k < 8)
    (h : (startX + j) % 64 = (startX + k) % 64) : j = k := by omega

/-- The bit that `blitRow` puts on column `c`: bit `7 - k` where `c` is column `startX + k`, else 0 (R196). -/
def rowBit (startX : Nat) (rowBits : Byte) (c : Fin 64) : Bool :=
  (List.range 8).any fun k => decide (c.val = (startX + k) % 64) && rowBits.getLsbD (7 - k)

/-- The frame and the hit after the first `n` turns of the loop of `blitRow`. -/
theorem blitPixels_spec (f : Frame) (startX y : Nat) (rowBits : Byte) (n : Nat) (hn : n ≤ 8) :
    (∀ r c, Frame.pixel ((List.range n).foldl (blitPixel startX y rowBits) (f, false)).1 r c =
      (Frame.pixel f r c ^^ (decide (r.val = y % 32) &&
        (List.range n).any fun k => decide (c.val = (startX + k) % 64) && rowBits.getLsbD (7 - k)))) ∧
    (((List.range n).foldl (blitPixel startX y rowBits) (f, false)).2 = true ↔
      ∃ k < n, Frame.pixel f (displayRow y) (displayColumn (startX + k)) = true ∧ rowBits.getLsbD (7 - k) = true) := by
  induction n with
  | zero => simp
  | succ n ih =>
    obtain ⟨ihp, ihh⟩ := ih (by omega)
    rw [List.range_succ, List.foldl_append, List.foldl_cons, List.foldl_nil]
    have hold : Frame.pixel ((List.range n).foldl (blitPixel startX y rowBits) (f, false)).1
        (displayRow y) (displayColumn (startX + n)) = Frame.pixel f (displayRow y) (displayColumn (startX + n)) := by
      rw [ihp]
      have : ((List.range n).any fun k => decide ((startX + n) % 64 = (startX + k) % 64) && rowBits.getLsbD (7 - k)) = false := by
        rw [List.any_eq_false]
        intro k hk
        have hk := List.mem_range.1 hk
        have : (startX + n) % 64 ≠ (startX + k) % 64 := fun e => by
          have := column_injective (by omega : n < 8) (by omega : k < 8) e
          omega
        simp only [this, decide_false, Bool.false_and, Bool.false_eq_true, not_false_eq_true]
      rw [val_displayColumn, this, Bool.and_false, Bool.xor_false]
    constructor
    · intro r c
      simp only [blitPixel, Frame.pixel_setPixel]
      rw [hold]
      simp only [List.any_append, List.any_cons, List.any_nil, Bool.or_false]
      by_cases hr : r.val = y % 32
      · by_cases hc : c.val = (startX + n) % 64
        · have hr' : r = displayRow y := Fin.ext (by simpa using hr)
          have hc' : c = displayColumn (startX + n) := Fin.ext (by simpa using hc)
          have h0 := ihp (displayRow y) (displayColumn (startX + n))
          rw [hold] at h0
          subst hr' hc'
          rw [if_pos ⟨rfl, rfl⟩]
          generalize ((List.range n).any fun k =>
            decide ((displayColumn (startX + n)).val = (startX + k) % 64) && rowBits.getLsbD (7 - k)) = z at h0 ⊢
          revert h0
          generalize Frame.pixel f (displayRow y) (displayColumn (startX + n)) = p
          generalize rowBits.getLsbD (7 - n) = b
          cases p <;> cases b <;> cases z <;> simp
        · have hne : ¬ (r = displayRow y ∧ c = displayColumn (startX + n)) := by
            rintro ⟨-, rfl⟩; exact hc (by simp)
          rw [if_neg hne, ihp]
          simp [hc]
      · have hne : ¬ (r = displayRow y ∧ c = displayColumn (startX + n)) := by
          rintro ⟨rfl, -⟩; exact hr (by simp)
        rw [if_neg hne, ihp]
        simp [hr]
    · simp only [blitPixel, Bool.or_eq_true, Bool.and_eq_true]
      rw [ihh, hold]
      constructor
      · rintro (⟨k, hk, h⟩ | h)
        · exact ⟨k, by omega, h⟩
        · exact ⟨n, by omega, h⟩
      · rintro ⟨k, hk, h⟩
        rcases Nat.lt_succ_iff_lt_or_eq.1 hk with hk | rfl
        · exact .inl ⟨k, hk, h⟩
        · exact .inr h

/-- `blitRow` XORs its bits onto one display row and leaves every other pixel alone (R196). -/
theorem pixel_blitRow (f : Frame) (startX y : Nat) (rowBits : Byte) (r : Fin 32) (c : Fin 64) :
    Frame.pixel (blitRow f startX y rowBits).1 r c =
      (Frame.pixel f r c ^^ (decide (r.val = y % 32) && rowBit startX rowBits c)) :=
  (blitPixels_spec f startX y rowBits 8 (Nat.le_refl 8)).1 r c

/-- `blitRow` reports a hit exactly when some pixel went from set to unset (R196, R201). -/
theorem hit_blitRow (f : Frame) (startX y : Nat) (rowBits : Byte) :
    (blitRow f startX y rowBits).2 = true ↔
      ∃ r c, Frame.pixel f r c = true ∧ Frame.pixel (blitRow f startX y rowBits).1 r c = false := by
  refine (blitPixels_spec f startX y rowBits 8 (Nat.le_refl 8)).2.trans ⟨?_, ?_⟩
  · rintro ⟨k, hk, hp, hb⟩
    refine ⟨_, _, hp, ?_⟩
    rw [pixel_blitRow, hp]
    have : rowBit startX rowBits (displayColumn (startX + k)) = true := by
      rw [rowBit, List.any_eq_true]
      exact ⟨k, List.mem_range.2 hk, by simp [hb]⟩
    simp [this]
  · rintro ⟨r, c, hp, hn⟩
    rw [pixel_blitRow, hp] at hn
    simp only [Bool.true_xor, Bool.not_eq_false', Bool.and_eq_true, decide_eq_true_eq] at hn
    obtain ⟨hr, hb⟩ := hn
    rw [rowBit, List.any_eq_true] at hb
    obtain ⟨k, hk, hb⟩ := hb
    simp only [Bool.and_eq_true, decide_eq_true_eq] at hb
    have hr' : r = displayRow y := Fin.ext (by simpa using hr)
    have hc' : c = displayColumn (startX + k) := Fin.ext (by simpa using hb.1)
    exact ⟨k, List.mem_range.1 hk, hr' ▸ hc' ▸ hp, hb.2⟩

/-- The bit that a sprite whose rows are `bytes` puts on pixel `(c, r)`: the XOR of its rows' bits there. -/
def spriteBit (startX y : Nat) : List Byte → Fin 32 → Fin 64 → Bool
  | [], _, _ => false
  | bits :: rest, r, c => (decide (r.val = y % 32) && rowBit startX bits c) ^^ spriteBit startX (y + 1) rest r c

/-- A sprite is XORed onto the frame, row by row (R198, R200). -/
theorem pixel_blitRows (f : Frame) (startX y : Nat) (bytes : List Byte) (r : Fin 32) (c : Fin 64) :
    Frame.pixel (blitRows f startX y bytes).1 r c = (Frame.pixel f r c ^^ spriteBit startX y bytes r c) := by
  induction bytes generalizing f y with
  | nil => simp [blitRows, spriteBit]
  | cons bits rest ih => rw [blitRows, ih, pixel_blitRow, spriteBit, Bool.xor_assoc]

/-- A column gets a 1 bit of a row exactly where one of the eight columns from `startX` is it and its bit is 1 (R196). -/
theorem rowBit_iff (startX : Nat) (rowBits : Byte) (c : Fin 64) :
    rowBit startX rowBits c = true ↔ ∃ k : Fin 8, c.val = (startX + k.val) % 64 ∧ rowBits.getLsbD (7 - k.val) = true := by
  simp only [rowBit, List.any_eq_true, List.mem_range, Bool.and_eq_true, decide_eq_true_eq]
  exact ⟨fun ⟨k, hk, h⟩ => ⟨⟨k, hk⟩, h⟩, fun ⟨k, h⟩ => ⟨k.val, k.isLt, h⟩⟩

/-- The rows of a sprite land on distinct display rows (R198 corner (d)), so a pixel gets a 1 bit exactly where its own row
gives it one. -/
theorem spriteBit_iff (startX y : Nat) (bytes : List Byte) (hlen : bytes.length < 32) (r : Fin 32) (c : Fin 64) :
    spriteBit startX y bytes r c = true ↔
      ∃ (row : Nat) (h : row < bytes.length), r.val = (y + row) % 32 ∧ rowBit startX bytes[row] c = true := by
  induction bytes generalizing y with
  | nil => simp [spriteBit]
  | cons bits rest ih =>
    rw [List.length_cons] at hlen
    rw [spriteBit]
    by_cases hr : r.val = y % 32
    · have hrest : spriteBit startX (y + 1) rest r c = false := by
        rw [← Bool.not_eq_true, ih (y + 1) (by omega)]
        rintro ⟨row, h, h1, -⟩
        omega
      simp only [hrest, hr, decide_true, Bool.true_and, Bool.xor_false]
      constructor
      · exact fun h => ⟨0, Nat.succ_pos _, by simp, h⟩
      · rintro ⟨row, h, h1, h2⟩
        obtain rfl : row = 0 := by rw [List.length_cons] at h; omega
        exact h2
    · simp only [hr, decide_false, Bool.false_and, Bool.false_xor]
      rw [ih (y + 1) (by omega)]
      constructor
      · rintro ⟨row, h, h1, h2⟩
        exact ⟨row + 1, by rw [List.length_cons]; omega, by omega, h2⟩
      · rintro ⟨row, h, h1, h2⟩
        cases row with
        | zero => exact absurd h1 hr
        | succ row => exact ⟨row, by rw [List.length_cons] at h; omega, by omega, h2⟩

/-- A draw reports a hit exactly when some pixel went from set to unset (R198, R201). -/
theorem hit_blitRows (f : Frame) (startX y : Nat) (bytes : List Byte) (hlen : bytes.length < 32) :
    (blitRows f startX y bytes).2 = true ↔
      ∃ r c, Frame.pixel f r c = true ∧ Frame.pixel (blitRows f startX y bytes).1 r c = false := by
  induction bytes generalizing f y with
  | nil => simp [blitRows]
  | cons bits rest ih =>
    rw [List.length_cons] at hlen
    have other : ∀ (r : Fin 32) (c : Fin 64), r.val = y % 32 → spriteBit startX (y + 1) rest r c = false := by
      intro r c hr
      rw [← Bool.not_eq_true, spriteBit_iff _ _ _ (by omega)]
      rintro ⟨row, h, h1, -⟩
      omega
    rw [blitRows]
    simp only [Bool.or_eq_true, hit_blitRow]
    rw [ih _ _ (by omega)]
    constructor
    · rintro (⟨r, c, h1, h2⟩ | ⟨r, c, h1, h2⟩)
      · have hr : r.val = y % 32 := by
          by_contra hr
          rw [pixel_blitRow, h1] at h2
          simp [hr] at h2
        exact ⟨r, c, h1, by rw [pixel_blitRows, h2, other r c hr]; rfl⟩
      · have hr : ¬ r.val = y % 32 := fun hr => by
          rw [pixel_blitRows, other r c hr, h1] at h2
          simp at h2
        exact ⟨r, c, by rw [pixel_blitRow] at h1; simpa [hr] using h1, h2⟩
    · rintro ⟨r, c, h1, h2⟩
      by_cases hr : r.val = y % 32
      · exact .inl ⟨r, c, h1, by rw [pixel_blitRows, other r c hr] at h2; simpa using h2⟩
      · exact .inr ⟨r, c, by rw [pixel_blitRow]; simpa [hr] using h1, h2⟩

end Sys2Proof.Machine
end

