-- ==== Sys2Proof/Laws/Exec.lean ====
section
/-! SUPPORT. Everything each branching meaning can do, one inversion lemma a meaning; the other meanings are one update each. -/

namespace Sys2Proof.Machine

/-- RET: an empty stack, entry `k` of `k + 1`, or an `SP` above 16, which no run reaches. -/
theorem execRet_cases (s : State) :
    (s.sp = 0 ∧ execRet s = .next (s.raise .stackUnderflow (encode .ret) 0)) ∨
    (∃ k : Fin 16, s.sp.toNat = k.val + 1 ∧ execRet s = .next { s with sp := s.sp - 1, pc := s.stack[k] }) ∨
    (16 < s.sp.toNat ∧ execRet s = .next (s.raise .stackOverflow (encode .ret) 0)) := by
  unfold execRet
  split
  · next h => exact .inl ⟨h, rfl⟩
  · next h =>
    have hpos : s.sp.toNat ≠ 0 := fun e => h (BitVec.eq_of_toNat_eq e)
    refine .inr ?_
    by_cases hlt : s.sp.toNat - 1 < 16
    · refine .inl ⟨⟨s.sp.toNat - 1, hlt⟩, by simp only; omega, ?_⟩
      rw [Vector.getElem?_eq_getElem hlt]
      rfl
    · refine .inr ⟨by omega, ?_⟩
      rw [Vector.getElem?_eq_none (by omega)]

/-- CALL: a free entry, or none. -/
theorem execCall_cases (nnn : Addr) (s : State) :
    (∃ h : s.sp.toNat < 16, execCall nnn s =
      .next { s with stack := s.stack.set s.sp.toNat (s.pc + 2) h, sp := s.sp + 1, pc := zextAddr nnn }) ∨
    (16 ≤ s.sp.toNat ∧ execCall nnn s = .next (s.raise .stackOverflow (encode (.call nnn)) 0)) := by
  unfold execCall
  split
  · next h => exact .inl ⟨h, rfl⟩
  · next h => exact .inr ⟨by omega, rfl⟩

/-- ADD I: in range, or out of bounds. -/
theorem execAddI_cases (x : Reg) (s : State) :
    (s.i.toNat + (s.reg x).toNat ≤ 0x0FFF ∧
      execAddI x s = .next { s with i := BitVec.ofNat 16 (s.i.toNat + (s.reg x).toNat) }.advance) ∨
    (0x0FFF < s.i.toNat + (s.reg x).toNat ∧
      execAddI x s = .next (s.raiseBounds (.addI x) (s.i.toNat + (s.reg x).toNat))) := by
  unfold execAddI
  dsimp only
  split
  · next h => exact .inr ⟨h, rfl⟩
  · next h => exact .inl ⟨by omega, rfl⟩

/-- DRW: the sprite in memory is drawn, or is out of bounds. -/
theorem execDrw_cases (x y : Reg) (n : Nibble) (s : State) :
    ((n.toNat = 0 ∨ s.i.toNat + n.toNat ≤ 4096) ∧
      execDrw x y n s =
        let drawn := blitRows s.fb (s.reg x).toNat (s.reg y).toNat (Memory.getBytes s.mem s.i.toNat n.toNat)
        .next (({ s with fb := drawn.1 }).setReg VF (flagByte drawn.2)).render.advance) ∨
    (n.toNat ≠ 0 ∧ 4096 < s.i.toNat + n.toNat ∧
      execDrw x y n s = .next (s.raiseBounds (.drw x y n) (max s.i.toNat 0x1000))) := by
  unfold execDrw
  split <;> rename_i h
  · obtain ⟨h1, h2, rfl⟩ := Memory.read_eq_error.1 h
    exact .inr ⟨h1, h2, rfl⟩
  · obtain ⟨h1, rfl⟩ := Memory.read_eq_ok.1 h
    exact .inl ⟨h1, rfl⟩

/-- LD Vx, K: no key, or a key. -/
theorem execLdVxK_cases (x : Reg) (s : State) :
    (s.now.keyWait = none ∧ execLdVxK x s = .next s) ∨
    (∃ k, s.now.keyWait = some k ∧ execLdVxK x s = .next (s.setReg x k).advance) := by
  unfold execLdVxK State.keyWait
  split <;> rename_i h
  · exact .inl ⟨h, rfl⟩
  · exact .inr ⟨_, h, rfl⟩

/-- LD Vx, [I]: the registers are loaded, or the range is out of bounds. -/
theorem execLdRegs_cases (x : Reg) (s : State) :
    (s.i.toNat + x.val ≤ 0x0FFF ∧ execLdRegs x s =
      .next { s with v := loadRegs s.v (Memory.getBytes s.mem s.i.toNat (x.val + 1)) }.advance) ∨
    (0x0FFF < s.i.toNat + x.val ∧ execLdRegs x s = .next (s.raiseBounds (.ldRegs x) (max s.i.toNat 0x1000))) := by
  unfold execLdRegs
  split <;> rename_i h
  · obtain ⟨h1, h2, rfl⟩ := Memory.read_eq_error.1 h
    exact .inr ⟨by omega, rfl⟩
  · obtain ⟨h1, rfl⟩ := Memory.read_eq_ok.1 h
    exact .inl ⟨by omega, rfl⟩

end Sys2Proof.Machine
end

