-- ==== Sys2Proof/Laws/PerInstr.lean ====
section
/-! SUPPORT. The family `EncodingRow`: the word of every instruction lies in its own row of the opcode map (R95), one lemma per
constructor. -/

namespace Sys2Proof.Laws.EncodingRow

/-- The encoded word of `i` matches the row that `i` stands for. -/
def Statement (i : Instr) : Prop := i.row.matches (encode i) = true

/-- A word of format NNN keeps its family. -/
theorem mask_wordNNN (fam : Nibble) (nnn : Addr) : wordNNN fam nnn &&& 0xF000 = fam ++ (0 : Addr) := by
  ext k hk
  simp only [wordNNN, BitVec.getElem_and, BitVec.getElem_append]
  interval_cases k <;> simp

/-- A word of format XKK keeps its family. -/
theorem mask_wordXKK (fam : Nibble) (x : Reg) (kk : Byte) : wordXKK fam x kk &&& 0xF000 = fam ++ (0 : Addr) := by
  ext k hk
  simp only [wordXKK, BitVec.getElem_and, BitVec.getElem_append]
  interval_cases k <;> simp

/-- A word of format XFF keeps its family and its low byte. -/
theorem mask_wordXFF (fam : Nibble) (x : Reg) (kk : Byte) : wordXKK fam x kk &&& 0xF0FF = fam ++ (0 : Nibble) ++ kk := by
  ext k hk
  simp only [wordXKK, BitVec.getElem_and, BitVec.getElem_append]
  interval_cases k <;> simp

/-- A word of format XYN keeps its family. -/
theorem mask_wordXYN (fam : Nibble) (x y : Reg) (n : Nibble) : wordXYN fam x y n &&& 0xF000 = fam ++ (0 : Addr) := by
  ext k hk
  simp only [wordXYN, BitVec.getElem_and, BitVec.getElem_append]
  interval_cases k <;> simp

/-- A word of format XYF keeps its family and its low nibble. -/
theorem mask_wordXYF (fam : Nibble) (x y : Reg) (n : Nibble) : wordXYN fam x y n &&& 0xF00F = fam ++ (0 : Byte) ++ n := by
  ext k hk
  simp only [wordXYN, BitVec.getElem_and, BitVec.getElem_append]
  interval_cases k <;> simp

theorem of_eq {r : Row} {w : Word} (h : w &&& r.mask = r.pattern) : r.matches w = true := beq_iff_eq.2 h

theorem cls : Statement .cls := of_eq (by decide)
theorem ret : Statement .ret := of_eq (by decide)
theorem jp (nnn : Addr) : Statement (.jp nnn) := of_eq (mask_wordNNN 0x1 nnn)
theorem call (nnn : Addr) : Statement (.call nnn) := of_eq (mask_wordNNN 0x2 nnn)
theorem seImm (x : Reg) (kk : Byte) : Statement (.seImm x kk) := of_eq (mask_wordXKK 0x3 x kk)
theorem sneImm (x : Reg) (kk : Byte) : Statement (.sneImm x kk) := of_eq (mask_wordXKK 0x4 x kk)
theorem seReg (x y : Reg) : Statement (.seReg x y) := of_eq (mask_wordXYF 0x5 x y 0x0)
theorem ldImm (x : Reg) (kk : Byte) : Statement (.ldImm x kk) := of_eq (mask_wordXKK 0x6 x kk)
theorem addImm (x : Reg) (kk : Byte) : Statement (.addImm x kk) := of_eq (mask_wordXKK 0x7 x kk)
theorem ldReg (x y : Reg) : Statement (.ldReg x y) := of_eq (mask_wordXYF 0x8 x y 0x0)
theorem orReg (x y : Reg) : Statement (.orReg x y) := of_eq (mask_wordXYF 0x8 x y 0x1)
theorem andReg (x y : Reg) : Statement (.andReg x y) := of_eq (mask_wordXYF 0x8 x y 0x2)
theorem xorReg (x y : Reg) : Statement (.xorReg x y) := of_eq (mask_wordXYF 0x8 x y 0x3)
theorem addReg (x y : Reg) : Statement (.addReg x y) := of_eq (mask_wordXYF 0x8 x y 0x4)
theorem subReg (x y : Reg) : Statement (.subReg x y) := of_eq (mask_wordXYF 0x8 x y 0x5)
theorem shr (x y : Reg) : Statement (.shr x y) := of_eq (mask_wordXYF 0x8 x y 0x6)
theorem subnReg (x y : Reg) : Statement (.subnReg x y) := of_eq (mask_wordXYF 0x8 x y 0x7)
theorem shl (x y : Reg) : Statement (.shl x y) := of_eq (mask_wordXYF 0x8 x y 0xE)
theorem sneReg (x y : Reg) : Statement (.sneReg x y) := of_eq (mask_wordXYF 0x9 x y 0x0)
theorem ldI (nnn : Addr) : Statement (.ldI nnn) := of_eq (mask_wordNNN 0xA nnn)
theorem jpV0 (nnn : Addr) : Statement (.jpV0 nnn) := of_eq (mask_wordNNN 0xB nnn)
theorem rnd (x : Reg) (kk : Byte) : Statement (.rnd x kk) := of_eq (mask_wordXKK 0xC x kk)
theorem drw (x y : Reg) (n : Nibble) : Statement (.drw x y n) := of_eq (mask_wordXYN 0xD x y n)
theorem skp (x : Reg) : Statement (.skp x) := of_eq (mask_wordXFF 0xE x 0x9E)
theorem sknp (x : Reg) : Statement (.sknp x) := of_eq (mask_wordXFF 0xE x 0xA1)
theorem ldVxDT (x : Reg) : Statement (.ldVxDT x) := of_eq (mask_wordXFF 0xF x 0x07)
theorem ldVxK (x : Reg) : Statement (.ldVxK x) := of_eq (mask_wordXFF 0xF x 0x0A)
theorem ldDT (x : Reg) : Statement (.ldDT x) := of_eq (mask_wordXFF 0xF x 0x15)
theorem ldST (x : Reg) : Statement (.ldST x) := of_eq (mask_wordXFF 0xF x 0x18)
theorem addI (x : Reg) : Statement (.addI x) := of_eq (mask_wordXFF 0xF x 0x1E)
theorem ldF (x : Reg) : Statement (.ldF x) := of_eq (mask_wordXFF 0xF x 0x29)
theorem ldB (x : Reg) : Statement (.ldB x) := of_eq (mask_wordXFF 0xF x 0x33)
theorem stRegs (x : Reg) : Statement (.stRegs x) := of_eq (mask_wordXFF 0xF x 0x55)
theorem ldRegs (x : Reg) : Statement (.ldRegs x) := of_eq (mask_wordXFF 0xF x 0x65)

end Sys2Proof.Laws.EncodingRow
end

