-- ==== Sys2Proof/Tests/Slice0.lean ====
section
/-! SUPPORT. Tests of the model on fixed values, taken from spec/95_test_vectors.md and the examples of the instruction rules, and
for each statement of Certificates/Slice0/Obligations.lean that has hypotheses a witness that meets them together. -/

namespace Sys2Proof.Tests

open Sys2Proof.Machine

/-- The reset state with the next cycle's inputs settled: no tick, no stop, no key (spec/95 "Notation"). -/
def start : State := { State.reset with inputs := [Input.quiet] }

/-- `start` with some general registers set. -/
def withRegs (l : List (Reg × Byte)) : State := l.foldl (fun s p => s.setReg p.1 p.2) start

/-- `s` with bytes in memory from address `a`. -/
def withBytes (s : State) (a : Nat) (bs : List Byte) : State := { s with mem := Memory.setBytes s.mem a bs }

/-- Whether an outcome is a next state that passes a check. -/
def after (o : Host.Outcome State Fault Refusal) (p : State → Bool) : Bool :=
  match o with
  | .next t => p t
  | .fault _ => false
  | .refused _ => false

/-- An outcome that passes a check is a next state that passes it. -/
theorem next_of_after {o : Host.Outcome State Fault Refusal} {p : State → Bool} (h : after o p = true) : ∃ t, o = .next t ∧ p t = true := by
  cases o with
  | next t => exact ⟨t, rfl, h⟩
  | fault _ => exact (Bool.false_ne_true h).elim
  | refused _ => exact (Bool.false_ne_true h).elim

/-- Whether a state holds this fault record and is Faulted (spec/95 "FAULT = (cause name, pc, instr, addr)"). -/
def faultedWith (cause : Cause) (pc instr addr : Word) (t : State) : Bool :=
  t.status == .faulted && t.faultRec == { cause := cause, pc := pc, instr := instr, addr := addr }

/-! ### Legal words (R95, R96): each illegal family is refused -/

theorem test_wellFormed_legal : [0x00E0, 0x00EE, 0x1000, 0x5AB0, 0x8AB7, 0x8ABE, 0x9AB0, 0xE59E, 0xE5A1, 0xFF65].all wellFormedWord = true := by
  decide
theorem test_illFormed_family0 : [0x0000, 0x00E1, 0x0123].any wellFormedWord = false := by decide
theorem test_illFormed_family5 : [0x5011, 0x500F].any wellFormedWord = false := by decide
theorem test_illFormed_family8 : [0x8008, 0x8009, 0x800A, 0x800B, 0x800C, 0x800D, 0x800F].any wellFormedWord = false := by decide
theorem test_illFormed_family9 : [0x9001, 0x900F].any wellFormedWord = false := by decide
theorem test_illFormed_familyE : [0xE09F, 0xE000, 0xE0A0].any wellFormedWord = false := by decide
theorem test_illFormed_familyF : [0xF000, 0xF1FF, 0xF075, 0xFFFF].any wellFormedWord = false := by decide
/-- No two rows match the same word: they differ on a bit that both masks keep (R95). -/
theorem test_rows_disjoint : opcodeMap.Pairwise (fun r q => r.pattern &&& q.mask ≠ q.pattern &&& r.mask) := by decide
theorem test_rows_count : opcodeMap.length = 34 := by decide

/-! ### Decoding: one word a constructor, written out from the patterns of R95 -/

theorem test_decode_cls : decode 0x00E0 = .ok (.cls) ∧ encode (.cls) = 0x00E0 := by decide
theorem test_decode_ret : decode 0x00EE = .ok (.ret) ∧ encode (.ret) = 0x00EE := by decide
theorem test_decode_jp : decode 0x1ABC = .ok (.jp 0xABC) ∧ encode (.jp 0xABC) = 0x1ABC := by decide
theorem test_decode_call : decode 0x220E = .ok (.call 0x20E) ∧ encode (.call 0x20E) = 0x220E := by decide
theorem test_decode_seImm : decode 0x3B12 = .ok (.seImm 11 0x12) ∧ encode (.seImm 11 0x12) = 0x3B12 := by decide
theorem test_decode_sneImm : decode 0x4C13 = .ok (.sneImm 12 0x13) ∧ encode (.sneImm 12 0x13) = 0x4C13 := by decide
theorem test_decode_seReg : decode 0x5120 = .ok (.seReg 1 2) ∧ encode (.seReg 1 2) = 0x5120 := by decide
theorem test_decode_ldImm : decode 0x6A0B = .ok (.ldImm 10 0x0B) ∧ encode (.ldImm 10 0x0B) = 0x6A0B := by decide
theorem test_decode_addImm : decode 0x7A02 = .ok (.addImm 10 0x02) ∧ encode (.addImm 10 0x02) = 0x7A02 := by decide
theorem test_decode_ldReg : decode 0x8130 = .ok (.ldReg 1 3) ∧ encode (.ldReg 1 3) = 0x8130 := by decide
theorem test_decode_orReg : decode 0x8141 = .ok (.orReg 1 4) ∧ encode (.orReg 1 4) = 0x8141 := by decide
theorem test_decode_andReg : decode 0x8152 = .ok (.andReg 1 5) ∧ encode (.andReg 1 5) = 0x8152 := by decide
theorem test_decode_xorReg : decode 0x8163 = .ok (.xorReg 1 6) ∧ encode (.xorReg 1 6) = 0x8163 := by decide
theorem test_decode_addReg : decode 0x8F14 = .ok (.addReg 15 1) ∧ encode (.addReg 15 1) = 0x8F14 := by decide
theorem test_decode_subReg : decode 0x80F5 = .ok (.subReg 0 15) ∧ encode (.subReg 0 15) = 0x80F5 := by decide
theorem test_decode_shr : decode 0x8016 = .ok (.shr 0 1) ∧ encode (.shr 0 1) = 0x8016 := by decide
theorem test_decode_subnReg : decode 0x8717 = .ok (.subnReg 7 1) ∧ encode (.subnReg 7 1) = 0x8717 := by decide
theorem test_decode_shl : decode 0x8E2E = .ok (.shl 14 2) ∧ encode (.shl 14 2) = 0x8E2E := by decide
theorem test_decode_sneReg : decode 0x9120 = .ok (.sneReg 1 2) ∧ encode (.sneReg 1 2) = 0x9120 := by decide
theorem test_decode_ldI : decode 0xA123 = .ok (.ldI 0x123) ∧ encode (.ldI 0x123) = 0xA123 := by decide
theorem test_decode_jpV0 : decode 0xB300 = .ok (.jpV0 0x300) ∧ encode (.jpV0 0x300) = 0xB300 := by decide
theorem test_decode_rnd : decode 0xC10F = .ok (.rnd 1 0x0F) ∧ encode (.rnd 1 0x0F) = 0xC10F := by decide
theorem test_decode_drw : decode 0xD5A7 = .ok (.drw 5 10 7) ∧ encode (.drw 5 10 7) = 0xD5A7 := by decide
theorem test_decode_skp : decode 0xE59E = .ok (.skp 5) ∧ encode (.skp 5) = 0xE59E := by decide
theorem test_decode_sknp : decode 0xE6A1 = .ok (.sknp 6) ∧ encode (.sknp 6) = 0xE6A1 := by decide
theorem test_decode_ldVxDT : decode 0xF107 = .ok (.ldVxDT 1) ∧ encode (.ldVxDT 1) = 0xF107 := by decide
theorem test_decode_ldVxK : decode 0xF20A = .ok (.ldVxK 2) ∧ encode (.ldVxK 2) = 0xF20A := by decide
theorem test_decode_ldDT : decode 0xF315 = .ok (.ldDT 3) ∧ encode (.ldDT 3) = 0xF315 := by decide
theorem test_decode_ldST : decode 0xF418 = .ok (.ldST 4) ∧ encode (.ldST 4) = 0xF418 := by decide
theorem test_decode_addI : decode 0xF51E = .ok (.addI 5) ∧ encode (.addI 5) = 0xF51E := by decide
theorem test_decode_ldF : decode 0xF629 = .ok (.ldF 6) ∧ encode (.ldF 6) = 0xF629 := by decide
theorem test_decode_ldB : decode 0xF733 = .ok (.ldB 7) ∧ encode (.ldB 7) = 0xF733 := by decide
theorem test_decode_stRegs : decode 0xF855 = .ok (.stRegs 8) ∧ encode (.stRegs 8) = 0xF855 := by decide
theorem test_decode_ldRegs : decode 0xF965 = .ok (.ldRegs 9) ∧ encode (.ldRegs 9) = 0xF965 := by decide
theorem test_decode_illegal : decode 0x8008 = .error (.unknownOpcode 0x8008) := by decide
theorem test_decodeBytes_bigEndian : decodeBytes [0x1A, 0xBC, 0x00] = .ok (.jp 0xABC, [0x00]) := by decide
theorem test_decodeBytes_truncated : decodeBytes [0x1A] = .error .truncated := by decide
theorem test_decodeTableWord : decodeTableWord 16 0xD015 = some (.drw 0 1 5) ∧ decodeTableWord 16 0x0000 = none := by decide
/-- spec/95 S8. -/
theorem test_fields : (famField 0xD5A7).toNat = 0xD ∧ xField 0xD5A7 = 5 ∧ yField 0xD5A7 = 10 ∧ nField 0xD5A7 = 7 ∧
    kkField 0xD5A7 = 0xA7 ∧ nnnField 0xD5A7 = 0x5A7 := by decide

/-! ### Instructions: the vectors of spec/95 Part 2 -/

/-- spec/95 A2. -/
theorem test_ldImm_vf : after (exec (.ldImm 15 0xAB) (start)) (fun t => t.reg VF == 0xAB && t.pc == 0x202) = true := by decide
/-- spec/95 A3. -/
theorem test_addImm_wraps : after (exec (.addImm 10 2) (withRegs [(10, 0xFF)])) (fun t => t.reg 10 == 1 && t.reg VF == 0) = true := by decide
/-- spec/95 A6. -/
theorem test_ldReg : after (exec (.ldReg 0 1) (withRegs [(1, 0xAB)])) (fun t => t.reg 0 == 0xAB) = true := by decide
/-- spec/95 A7. -/
theorem test_orReg : after (exec (.orReg 0 1) (withRegs [(0, 0xF0), (1, 0x0F), (15, 7)])) (fun t => t.reg 0 == 0xFF && t.reg VF == 7) = true := by decide
/-- spec/95 A8. -/
theorem test_andReg : after (exec (.andReg 0 1) (withRegs [(0, 0xF0), (1, 0x3C)])) (fun t => t.reg 0 == 0x30) = true := by decide
/-- spec/95 A9. -/
theorem test_xorReg : after (exec (.xorReg 0 1) (withRegs [(0, 0xF0), (1, 0x3C)])) (fun t => t.reg 0 == 0xCC) = true := by decide
/-- spec/95 S1, A11. -/
theorem test_addReg_carry : after (exec (.addReg 0 1) (withRegs [(0, 0xFF), (1, 0x01)])) (fun t => t.reg 0 == 0 && t.reg VF == 1 && t.reg 1 == 1 && t.pc == 0x202) = true := by decide
/-- spec/95 A17. -/
theorem test_addReg_intoVF : after (exec (.addReg 15 15) (withRegs [(15, 0x90)])) (fun t => t.reg VF == 0x20) = true := by decide
/-- spec/95 A19. -/
theorem test_subReg_borrow : after (exec (.subReg 0 1) (withRegs [(0, 3), (1, 5)])) (fun t => t.reg 0 == 0xFE && t.reg VF == 0) = true := by decide
/-- spec/95 A20. -/
theorem test_subReg_equal : after (exec (.subReg 0 1) (withRegs [(0, 7), (1, 7)])) (fun t => t.reg 0 == 0 && t.reg VF == 1) = true := by decide
/-- spec/95 A24. -/
theorem test_shr : after (exec (.shr 0 1) (withRegs [(0, 5), (1, 0xFF)])) (fun t => t.reg 0 == 2 && t.reg VF == 1 && t.reg 1 == 0xFF) = true := by decide
/-- spec/95 A28. -/
theorem test_shr_intoVF : after (exec (.shr 15 0) (withRegs [(15, 2)])) (fun t => t.reg VF == 1) = true := by decide
/-- spec/95 A30. -/
theorem test_subnReg : after (exec (.subnReg 0 1) (withRegs [(0, 5), (1, 3)])) (fun t => t.reg 0 == 0xFE && t.reg VF == 0) = true := by decide
/-- spec/95 A32. -/
theorem test_subnReg_intoVF : after (exec (.subnReg 15 1) (withRegs [(15, 2), (1, 7)])) (fun t => t.reg VF == 5) = true := by decide
/-- spec/95 A34. -/
theorem test_shl : after (exec (.shl 0 1) (withRegs [(0, 0x81)])) (fun t => t.reg 0 == 2 && t.reg VF == 1) = true := by decide
/-- spec/95 A38. -/
theorem test_shl_intoVF : after (exec (.shl 15 0) (withRegs [(15, 0x80)])) (fun t => t.reg VF == 0) = true := by decide
/-- spec/95 B1. -/
theorem test_seImm_taken : after (exec (.seImm 0 0x12) (withRegs [(0, 0x12)])) (fun t => t.pc == 0x204) = true := by decide
/-- spec/95 B2. -/
theorem test_seImm_notTaken : after (exec (.seImm 0 0x13) (withRegs [(0, 0x12)])) (fun t => t.pc == 0x202) = true := by decide
/-- spec/95 B4. -/
theorem test_sneImm : after (exec (.sneImm 0 0x13) (withRegs [(0, 0x12)])) (fun t => t.pc == 0x204) = true := by decide
/-- spec/95 B6. -/
theorem test_seReg : after (exec (.seReg 0 1) (withRegs [(0, 7), (1, 8)])) (fun t => t.pc == 0x202) = true := by decide
/-- spec/95 B9. -/
theorem test_sneReg : after (exec (.sneReg 0 1) (withRegs [(0, 7), (1, 8)])) (fun t => t.pc == 0x204) = true := by decide
/-- spec/95 C3. -/
theorem test_jp : after (exec (.jp 0xFFF) (start)) (fun t => t.pc == 0xFFF) = true := by decide
/-- spec/95 C5. -/
theorem test_jpV0 : after (exec (.jpV0 0xFFF) (withRegs [(0, 0xFF)])) (fun t => t.pc == 0x10FE) = true := by decide
/-- spec/95 C7. -/
theorem test_call : after (exec (.call 0x20E) ({ start with pc := 0x204 })) (fun t => t.stack[0] == 0x206 && t.sp == 1 && t.pc == 0x20E) = true := by decide
/-- spec/95 C8. -/
theorem test_call_last : after (exec (.call 0xABC) ({ start with sp := 15 })) (fun t => t.stack[15] == 0x202 && t.sp == 16) = true := by decide
/-- spec/95 C11. -/
theorem test_ret : after (exec (.ret) ({ start with sp := 1, stack := start.stack.set 0 0x206 })) (fun t => t.sp == 0 && t.pc == 0x206 && t.stack[0] == 0x206) = true := by decide
/-- spec/95 C12. -/
theorem test_ret_full : after (exec (.ret) ({ start with sp := 16, stack := start.stack.set 15 0x345 })) (fun t => t.sp == 15 && t.pc == 0x345) = true := by decide
/-- spec/95 D2v. -/
theorem test_ldI : after (exec (.ldI 0xFFF) (start)) (fun t => t.i == 0xFFF) = true := by decide
/-- spec/95 D4v. -/
theorem test_addI : after (exec (.addI 0) ({ withRegs [(0, 0x0F)] with i := 0xFF0 })) (fun t => t.i == 0xFFF && t.status == .running) = true := by decide
/-- spec/95 D6v. -/
theorem test_addI_faults : after (exec (.addI 0) ({ withRegs [(0, 0xFF)] with i := 0xFFF })) (fun t => faultedWith .outOfBoundsAccess 0x200 0xF01E 0x10FE t && t.i == 0xFFF && t.pc == 0x200) = true := by decide
/-- spec/95 D8v. -/
theorem test_ldF : after (exec (.ldF 0) (withRegs [(0, 0x0A)])) (fun t => t.i == 0x32) = true := by decide
/-- spec/95 D11v. -/
theorem test_ldF_unmasked : after (exec (.ldF 0) (withRegs [(0, 0xFF)])) (fun t => t.i == 0x4FB) = true := by decide
/-- spec/95 F1. -/
theorem test_rnd : after (exec (.rnd 0 0x0F) ({ start with now := { Input.quiet with rand := 0xA7 } })) (fun t => t.reg 0 == 0x07) = true := by decide
/-- spec/95 G9v. -/
theorem test_cls : after (exec (.cls) ({ start with fb := Frame.setPixel Frame.clear 31 63 true })) (fun t => t.fb.pixel 31 63 == false && t.renders.length == 1) = true := by decide
/-- spec/95 G2v. -/
theorem test_drw_wraps : after (exec (.drw 0 1 2) (withBytes { withRegs [(0, 0x3E), (1, 0x1F)] with i := 0x300 } 0x300 [0xC0, 0x81])) (fun t => t.reg VF == 0 && t.renders.length == 1 && t.fb.pixel 31 62 && t.fb.pixel 31 63 && t.fb.pixel 0 62 && t.fb.pixel 0 5 && !t.fb.pixel 31 0 && !t.fb.pixel 0 63) = true := by decide
/-- spec/95 S3, second row. -/
theorem test_drw_collides : after (exec (.drw 0 1 1) (withBytes { start with i := 0x300, fb := Frame.setPixel Frame.clear 0 0 true } 0x300 [0x80])) (fun t => t.reg VF == 1 && !t.fb.pixel 0 0 && !t.fb.pixel 0 1) = true := by decide
/-- spec/95 H5v. -/
theorem test_skp_unmasked : after (exec (.skp 0) ({ withRegs [(0, 0xFF)] with now := { Input.quiet with keysDown := [0xFF] } })) (fun t => t.pc == 0x204) = true := by decide
/-- spec/95 H2v. -/
theorem test_skp_notDown : after (exec (.skp 0) ({ withRegs [(0, 6)] with now := { Input.quiet with keysDown := [5] } })) (fun t => t.pc == 0x202) = true := by decide
/-- spec/95 H3v. -/
theorem test_sknp : after (exec (.sknp 0) ({ withRegs [(0, 5)] with now := { Input.quiet with keysDown := [5] } })) (fun t => t.pc == 0x202) = true := by decide
/-- spec/95 H4v. -/
theorem test_sknp_notDown : after (exec (.sknp 0) ({ withRegs [(0, 6)] with now := { Input.quiet with keysDown := [5] } })) (fun t => t.pc == 0x204) = true := by decide
/-- spec/95 H6v. -/
theorem test_ldVxK_waits : after (exec (.ldVxK 0) (withRegs [(0, 7)])) (fun t => t.pc == 0x200 && t.reg 0 == 7 && t.status == .running) = true := by decide
/-- spec/95 H8v. -/
theorem test_ldVxK_key : after (exec (.ldVxK 15) ({ start with now := { Input.quiet with keyWait := some 0x0B } })) (fun t => t.reg VF == 0x0B && t.pc == 0x202) = true := by decide
/-- spec/95 I1v. -/
theorem test_ldVxDT : after (exec (.ldVxDT 1) ({ start with dt := 0x3B })) (fun t => t.reg 1 == 0x3B && t.dt == 0x3B) = true := by decide
/-- spec/95 I2v. -/
theorem test_ldDT : after (exec (.ldDT 0) (withRegs [(0, 0x3C)])) (fun t => t.dt == 0x3C && t.st == 0) = true := by decide
/-- spec/95 I3v. -/
theorem test_ldST : after (exec (.ldST 2) (withRegs [(2, 0x0A)])) (fun t => t.st == 0x0A && t.dt == 0) = true := by decide
/-- spec/95 J1v. -/
theorem test_ldB : after (exec (.ldB 0) ({ withRegs [(0, 0xEA)] with i := 0x300 })) (fun t => Memory.getBytes t.mem 0x300 3 == [2, 3, 4] && t.i == 0x300) = true := by decide
/-- spec/95 J7v. -/
theorem test_ldB_faults : after (exec (.ldB 0) ({ withRegs [(0, 0xFF)] with i := 0xFFE })) (fun t => faultedWith .outOfBoundsAccess 0x200 0xF033 0x1000 t && t.mem == start.mem) = true := by decide
/-- spec/95 J8v. -/
theorem test_stRegs : after (exec (.stRegs 0) ({ withRegs [(0, 0xAA)] with i := 0xFFF })) (fun t => Memory.get t.mem 0xFFF == 0xAA && t.i == 0xFFF && t.status == .running) = true := by decide
/-- spec/95 J9v. -/
theorem test_stRegs_faults : after (exec (.stRegs 1) ({ withRegs [(0, 0xAA), (1, 0xBB)] with i := 0xFFF })) (fun t => faultedWith .outOfBoundsAccess 0x200 0xF155 0x1000 t && t.mem == start.mem) = true := by decide
/-- spec/95 J13v. -/
theorem test_ldRegs : after (exec (.ldRegs 2) (withBytes { withRegs [(3, 0x77)] with i := 0x300 } 0x300 [2, 3, 4, 5])) (fun t => t.reg 0 == 2 && t.reg 1 == 3 && t.reg 2 == 4 && t.reg 3 == 0x77 && t.i == 0x300) = true := by decide
/-- spec/95 J15v. -/
theorem test_ldRegs_faults : after (exec (.ldRegs 1) ({ withRegs [(0, 9)] with i := 0xFFF })) (fun t => faultedWith .outOfBoundsAccess 0x200 0xF165 0x1000 t && t.reg 0 == 9) = true := by decide
/-- spec/95 C13. -/
theorem test_ret_faults : after (exec (.ret) (start)) (fun t => faultedWith .stackUnderflow 0x200 0x00EE 0 t) = true := by decide
/-- spec/95 C9. -/
theorem test_call_faults : after (exec (.call 0xABC) ({ start with sp := 16 })) (fun t => faultedWith .stackOverflow 0x200 0x2ABC 0 t && t.sp == 16) = true := by decide
/-- spec/95 G4v. -/
theorem test_drw_faults : after (exec (.drw 0 1 3) ({ withRegs [(15, 5)] with i := 0xFFE })) (fun t => faultedWith .outOfBoundsAccess 0x200 0xD013 0x1000 t && t.reg VF == 5 && t.renders.length == 0 && t.mem == start.mem) = true := by decide
/-- spec/95 G3v. -/
theorem test_drw_empty : after (exec (.drw 0 1 0) ({ withRegs [(0, 5), (1, 5), (15, 1)] with i := 0xFFF })) (fun t => t.reg VF == 0 && !t.fb.pixel 5 5 && t.renders.length == 1) = true := by decide

/-! ### The cycle (spec/95 V-E, V-I, V-K) -/

/-- A word at `PC`, the next cycle's inputs quiet. -/
def at200 (w : Word) : State := start.placeWord w

/-- spec/95 S6, first cycle. -/
theorem test_step_runs : after (step (at200 0x6005)) (fun t => t.reg 0 == 5 && t.pc == 0x202 && t.status == .running) = true := by decide
/-- spec/95 C2, K4. -/
theorem test_step_selfJump : after (step (at200 0x1200)) (fun t => t.status == .halted && t.pc == 0x200) = true := by decide
/-- spec/95 C6: JP V0 to itself is no halt. -/
theorem test_step_jpV0_self : after (step (at200 0xB200)) (fun t => t.status == .running && t.pc == 0x200) = true := by decide
/-- spec/95 E1: an empty program image. -/
theorem test_step_zeroWord : after (step start) (faultedWith .unknownOpcode 0x200 0x0000 0) = true := by decide
/-- spec/95 E4. -/
theorem test_step_illegal : after (step (at200 0x5011)) (faultedWith .unknownOpcode 0x200 0x5011 0) = true := by decide
/-- spec/95 C3, the cycle after it. -/
theorem test_step_fetch_last : after (step { start with pc := 0xFFF }) (faultedWith .outOfBoundsAccess 0xFFF 0 0x1000) = true := by decide
/-- spec/95 C5, the cycle after it. -/
theorem test_step_fetch_beyond : after (step { start with pc := 0x10FE }) (faultedWith .outOfBoundsAccess 0x10FE 0 0x10FE) = true := by
  decide
/-- spec/95 K3: the stop check precedes the fetch. -/
theorem test_step_stop : after (step { start with pc := 0x1000, inputs := [{ Input.quiet with stop := true }] })
    (fun t => t.status == .stopped && t.faultRec == FaultRecord.clear) = true := by decide
/-- spec/95 I4v: one tick. -/
theorem test_tick : ({ start with dt := 2, st := 1 } : State).tick.dt = 1 ∧ ({ start with dt := 2, st := 1 } : State).tick.st = 0 := by decide
/-- spec/95 I6v: no wrap. -/
theorem test_tick_zero : start.tick.dt = 0 ∧ start.tick.st = 0 := by decide
/-- R248: ticks before the cycle are applied before the instruction reads `DT`. -/
theorem test_step_ticks : after (step { (at200 0xF107) with dt := 5, inputs := [{ Input.quiet with ticks := 2 }] })
    (fun t => t.reg 1 == 3 && t.dt == 3) = true := by decide
/-- spec/95 the odd program counter at the end of V-C. -/
theorem test_step_oddPc : after (step { (withBytes start 0x203 [0x60, 0x05]) with pc := 0x203 }) (fun t => t.reg 0 == 5 && t.pc == 0x205) = true := by
  decide
theorem test_withFetchWord : after (step (State.reset.withFetchWord 16 0x60AB)) (fun t => t.reg 0 == 0xAB) = true := by decide

/-! ### Launch and memory -/

theorem test_launchMemory_customary : launchMemory Config.customaryFont [] = [] := by decide
/-- The model's reset state is a launch (log 1, log 2). -/
theorem test_reset_is_launch : State.launch Config.customaryFont [] = .next State.reset := by
  rw [State.launch, if_pos (by decide), test_launchMemory_customary]; rfl
/-- spec/93 G1, the glyph of 7 at 0x023. -/
theorem test_reset_font : Memory.getBytes State.reset.mem 0x23 5 = [0xF0, 0x10, 0x20, 0x40, 0x40] := by decide
/-- Writing back what an unlisted byte reads as removes the cell. -/
theorem test_memory_canonical : Memory.set (Memory.set [] 0x300 9) 0x300 0 = [] := by decide

/-! ### Witnesses: a state and operands that meet the hypotheses of each statement -/

/-- A full stack, a sprite's worth of memory ahead of `I`. -/
def busy : State := { start with sp := 16, i := 0x300, dt := 3 }

theorem witness_LaunchGivesResetValues : (List.replicate 3584 (0 : Byte)).length ≤ 3584 := by rw [List.length_replicate]
theorem witness_OversizedImageIsLoadError : (List.replicate 3585 (0 : Byte)).length > 3584 := by rw [List.length_replicate]; decide
theorem witness_EncodeOfDecode : decode 0xD015 = .ok (.drw 0 1 5) := by decide
theorem witness_DecodeFollowsOpcodeMap : (⟨0xF0FF, 0xF065⟩ : Row) ∈ opcodeMap := by decide
theorem witness_MemWriteChecksBounds : Memory.wf [(0xFFF, 9)] = true ∧ ([1, 2] : List Byte).length ≠ 0 ∧ 0xFFF + ([1, 2] : List Byte).length > 0x1000 ∧
    0xFFE + ([1, 2] : List Byte).length ≤ 0x1000 := by decide
/-- The clauses of `MemWriteChecksBounds` where they meet: one byte at 0xFFF and at 0x1000, two at 0xFFE and at 0xFFF. -/
theorem witness_MemWriteChecksBounds_bounds : Memory.write [] 0xFFF [7] = .ok [(0xFFF, 7)] ∧ Memory.write [] 0x1000 [7] = .error 0x1000 ∧
    Memory.write [] 0xFFE [7, 8] = .ok [(0xFFE, 7), (0xFFF, 8)] ∧ Memory.write [] 0xFFF [7, 8] = .error 0x1000 ∧
    Memory.write [] 0x1001 [7] = .error 0x1001 ∧ Memory.write [] 0x1001 [] = .ok [] := by decide
theorem witness_StoredBytesAreFetched : ∃ t, Memory.wf { start with i := 0xFFE }.mem = true ∧ ({ start with i := 0xFFE } : State).i.toNat + (1 : Reg).val ≤ 0x0FFF ∧
    (1 : Reg).val = (0 : Reg).val + 1 ∧ (1 : Reg) ≤ 1 ∧ exec (.stRegs 1) { start with i := 0xFFE } = .next t :=
  ⟨_, by decide, by decide, by decide, by decide, rfl⟩
theorem witness_RetPopsTheStack : busy.sp.toNat = (15 : Fin 16).val + 1 := by decide
theorem witness_CallPushesReturnAddress : ({ busy with sp := 15 } : State).sp.toNat = (15 : Fin 16).val := by decide
theorem witness_AddIndexInRange : ({ withRegs [(0, 0x0F)] with i := 0xFF0 } : State).i.toNat + ((withRegs [(0, 0x0F)]).reg 0).toNat ≤ 0x0FFF := by decide
theorem witness_DrawTogglesSpritePixels : busy.i.toNat + (5 : Nibble).toNat - 1 ≤ 0x0FFF ∧ (0 : Nibble).toNat = 0 ∧
    ({ busy with i := 0xFFE } : State).i.toNat + (2 : Nibble).toNat - 1 ≤ 0x0FFF := by decide
theorem witness_DoubleDrawRestoresFrame : busy.i.toNat + (1 : Nibble).toNat - 1 ≤ 0x0FFF ∧
    ∃ t, exec (.drw 0 1 1) busy = .next t ∧ (t.reg 0 == busy.reg 0 && t.reg 1 == busy.reg 1) = true :=
  ⟨by decide, next_of_after (p := fun t => t.reg 0 == busy.reg 0 && t.reg 1 == busy.reg 1) (by decide)⟩
theorem witness_WaitForKey_none : start.now.keyWait = none := by decide
theorem witness_WaitForKey_some : ({ start with now := { Input.quiet with keyWait := some 7 } } : State).now.keyWait = some 7 := by decide
theorem witness_TicksStopAtZero : busy.status = .running ∧ ({ busy with status := .halted } : State).status ≠ .running := by decide
theorem witness_BcdStoresDigits : Memory.wf { busy with i := 0xFFD }.mem = true ∧ ({ busy with i := 0xFFD } : State).i.toNat + 2 ≤ 0x0FFF := by decide
theorem witness_StoreRegisters : Memory.wf { busy with i := 0xFF0 }.mem = true ∧ ({ busy with i := 0xFF0 } : State).i.toNat + (15 : Reg).val ≤ 0x0FFF := by
  decide
theorem witness_LoadRegisters : ({ busy with i := 0xFF0 } : State).i.toNat + (15 : Reg).val ≤ 0x0FFF := by decide
theorem witness_RegistersFrame : ∃ t, exec (.ldRegs 2) busy = .next t ∧ writesReg (.ldRegs 2) 3 = false ∧ writesReg (.addReg 0 1) 1 = false :=
  ⟨_, rfl, by decide, by decide⟩
theorem witness_SpecialRegistersFrame : ∃ t, exec (.addReg 0 1) busy = .next t ∧ writesIndex (.addReg 0 1) = false := ⟨_, rfl, by decide⟩
theorem witness_MemoryFrame : ∃ t, exec (.ldB 0) busy = .next t ∧ busy.i.toNat + storeLength (.ldB 0) ≤ 0x303 := ⟨_, rfl, by decide⟩
theorem witness_DisplayFrame : ∃ t, exec .cls busy = .next t ∧ writesDisplay .cls = true ∧ busy.status = .running ∧ t.status = .running :=
  ⟨_, rfl, by decide, by decide, by decide⟩
theorem witness_DisplayFrame_other : ∃ t, exec (.ldI 5) busy = .next t ∧ writesDisplay (.ldI 5) = false := ⟨_, rfl, by decide⟩
theorem witness_ExecuteStageFaults : busy.sp.toNat ≤ 16 ∧ busy.i.toNat ≤ 0x0FFF := by decide
/-- The clauses of `executeFault` at the boundary of each check: on it, and one beyond it. -/
theorem witness_ExecuteStageFaults_bounds :
    executeFault .ret start = some (.stackUnderflow, 0) ∧ executeFault .ret { start with sp := 1 } = none ∧
    executeFault (.call 0) busy = some (.stackOverflow, 0) ∧ executeFault (.call 0) { start with sp := 15 } = none ∧
    executeFault (.drw 0 0 2) { start with i := 0xFFE } = none ∧ executeFault (.drw 0 0 0) { start with i := 0xFFF } = none ∧
    executeFault (.drw 0 0 2) { start with i := 0xFFF } = some (.outOfBoundsAccess, 0x1000) ∧
    executeFault (.ldB 0) { start with i := 0xFFD } = none ∧ executeFault (.ldB 0) { start with i := 0xFFE } = some (.outOfBoundsAccess, 0x1000) ∧
    executeFault (.stRegs 15) { start with i := 0xFF0 } = none ∧
    executeFault (.stRegs 15) { start with i := 0xFF1 } = some (.outOfBoundsAccess, 0x1000) ∧
    executeFault (.ldRegs 0) { start with i := 0xFFF } = none ∧
    executeFault (.ldRegs 1) { start with i := 0xFFF } = some (.outOfBoundsAccess, 0x1000) ∧
    executeFault (.addI 0) { withRegs [(0, 0x0F)] with i := 0xFF0 } = none ∧
    executeFault (.addI 0) { withRegs [(0, 0x10)] with i := 0xFF0 } = some (.outOfBoundsAccess, 0x1000) := by decide
/-- The clauses of `MemReadChecksBounds` where they meet. -/
theorem witness_MemReadChecksBounds : Memory.read [] 0xFFF 1 = .ok [0] ∧ Memory.read [] 0x1000 1 = .error 0x1000 ∧
    Memory.readWord [] 0xFFE = .ok 0 ∧ Memory.readWord [] 0xFFF = .error 0x1000 ∧ Memory.readWord [] 0x1001 = .error 0x1001 := by decide
theorem witness_SoundTimerStatusFaultUnobserved : ∃ t t', exec (.ldST 0) busy = .next t ∧
    exec (.ldST 0) { busy with st := 9, status := .halted, faultRec := { FaultRecord.clear with pc := 7 } } = .next t' := ⟨_, _, rfl, rfl⟩
theorem witness_StepRunsDecodedInstruction : (at200 0x00E0).status = .running ∧ (at200 0x00E0).nextInput.stop = false ∧
    Memory.readWord (at200 0x00E0).mem (at200 0x00E0).pc.toNat = .ok 0x00E0 ∧
    ¬ ((0x00E0 : Word).toNat / 0x1000 = 0x1 ∧ (0x00E0 : Word).toNat % 0x1000 = (at200 0x00E0).pc.toNat) ∧ decode 0x00E0 = .ok .cls := by decide
/-- The second clause of `StepRunsDecodedInstruction` in a state whose next cycle faults: two ticks and the inputs, nothing else. -/
theorem witness_StepRunsDecodedInstruction_boundary :
    (fun t : State => t.dt == 1 && t.st == 0 && t.pc == 0xFFF && t.cycles == 1 && t.inputs.length == 0 && t.now.ticks == 2)
      { start with pc := 0xFFF, dt := 3, st := 1, inputs := [{ Input.quiet with ticks := 2 }] }.beginCycle = true := by decide
theorem witness_StopEndsTheCycle : start.status = .running ∧ ({ start with inputs := [{ Input.quiet with stop := true }] } : State).nextInput.stop = true := by
  decide
theorem witness_FetchOutOfBoundsFaults : ({ start with pc := 0xFFF } : State).status = .running ∧ ({ start with pc := 0xFFF } : State).nextInput.stop = false ∧
    ({ start with pc := 0xFFF } : State).pc.toNat > 0x0FFE ∧ ({ start with pc := 0x1000 } : State).pc.toNat > 0x0FFE := by decide
theorem witness_SelfJumpHalts : (at200 0x1200).status = .running ∧ (at200 0x1200).nextInput.stop = false ∧
    Memory.readWord (at200 0x1200).mem (at200 0x1200).pc.toNat = .ok 0x1200 ∧ (0x1200 : Word).toNat / 0x1000 = 0x1 ∧
    (0x1200 : Word).toNat % 0x1000 = (at200 0x1200).pc.toNat := by decide
theorem witness_OnlySelfJumpHalts : (at200 0x1200).status = .running ∧ ∃ t, step (at200 0x1200) = .next t ∧ (t.status == .halted) = true :=
  ⟨by decide, next_of_after (p := fun t => t.status == .halted) (by decide)⟩
theorem witness_UnknownOpcodeFaults : start.status = .running ∧ start.nextInput.stop = false ∧
    Memory.readWord start.mem start.pc.toNat = .ok 0x0000 ∧ wellFormedWord 0x0000 = false := by decide
theorem witness_FaultsArePrecise : start.status = .running ∧ ∃ t, step start = .next t ∧ (t.status == .faulted) = true :=
  ⟨by decide, next_of_after (p := fun t => t.status == .faulted) (by decide)⟩
theorem witness_FinalStatesAreFrozen : ({ start with status := .stopped } : State).status ≠ .running := by decide
theorem witness_StepKeepsInvariant : (at200 0x2202).Inv ∧ ∃ t, step (at200 0x2202) = .next t ∧ (t.sp == 1) = true :=
  ⟨by decide, next_of_after (p := fun t => t.sp == 1) (by decide)⟩
theorem witness_ReachableStatesMeetInvariant : Reachable State.reset := .launch Config.customaryFont [] _ test_reset_is_launch

end Sys2Proof.Tests
end

section
/-! The checked reads of one byte and of one word (spec/20_memory.md R64). -/

namespace Sys2Proof.Machine

/-- Settles O11: each branch is what the checked reads can answer, with the lowest address outside at the bound. -/
theorem memReadChecksBounds : Obligations.MemReadChecksBounds := by
  intro m a
  constructor
  · split
    · exact Memory.read_eq_error.2 ⟨Nat.one_ne_zero, by omega, by omega⟩
    · exact Memory.read_eq_ok.2 ⟨.inr (by omega), rfl⟩
  · split
    · exact Memory.readWord_eq_error.2 ⟨by omega, by split <;> omega⟩
    · exact Memory.readWord_eq_ok.2 ⟨by omega, rfl⟩

end Sys2Proof.Machine
end

section
/-! The fields of the instruction word: their numbers, the word put together from them, and what a mask keeps of them
(spec/30_encoding.md R91, R92, R95). -/

namespace Sys2Proof

theorem famField_toNat (w : Word) : (famField w).toNat = w.toNat / 0x1000 := by
  rw [famField, BitVec.extractLsb'_toNat, Nat.shiftRight_eq_div_pow]
  omega

theorem xField_val (w : Word) : (xField w).val = w.toNat / 0x100 % 0x10 := by
  simp [xField, Nat.shiftRight_eq_div_pow]

theorem yField_val (w : Word) : (yField w).val = w.toNat / 0x10 % 0x10 := by
  simp [yField, Nat.shiftRight_eq_div_pow]

theorem nField_toNat (w : Word) : (nField w).toNat = w.toNat % 0x10 := BitVec.extractLsb'_toNat ..

theorem kkField_toNat (w : Word) : (kkField w).toNat = w.toNat % 0x100 := BitVec.extractLsb'_toNat ..

theorem nnnField_toNat (w : Word) : (nnnField w).toNat = w.toNat % 0x1000 := BitVec.extractLsb'_toNat ..

/-- Settles O10: each field is a range of the word's digits, so the overlaps are arithmetic. -/
theorem fieldsOfTheWord : Obligations.FieldsOfTheWord := by
  intro w
  refine ⟨famField_toNat w, xField_val w, yField_val w, nField_toNat w, kkField_toNat w, nnnField_toNat w, ?_, ?_⟩
  · rw [nnnField_toNat, xField_val, kkField_toNat]; omega
  · rw [kkField_toNat, yField_val, nField_toNat]; omega

/-! ### The word from its fields, in each format of R92 -/

theorem wordNNN_fields (w : Word) : wordNNN (famField w) (nnnField w) = w :=
  (BitVec.extractLsb'_append_extractLsb'_eq_extractLsb' rfl).trans BitVec.extractLsb'_eq_self

theorem xField_append_kkField (w : Word) : (BitVec.ofFin (xField w) : Nibble) ++ kkField w = nnnField w :=
  BitVec.extractLsb'_append_extractLsb'_eq_extractLsb' rfl

theorem yField_append_nField (w : Word) : (BitVec.ofFin (yField w) : Nibble) ++ nField w = kkField w :=
  BitVec.extractLsb'_append_extractLsb'_eq_extractLsb' rfl

theorem wordXKK_fields (w : Word) : wordXKK (famField w) (xField w) (kkField w) = w := by
  rw [wordXKK, BitVec.append_assoc, xField_append_kkField]
  exact wordNNN_fields w

theorem wordXYN_fields (w : Word) : wordXYN (famField w) (xField w) (yField w) (nField w) = w := by
  rw [wordXYN, BitVec.append_assoc, yField_append_nField]
  exact wordXKK_fields w

/-! ### What a matched row says of the fields -/

/-- Every row's mask keeps the family. -/
theorem famField_mask_eq_allOnes : ∀ r ∈ opcodeMap, famField r.mask = BitVec.allOnes 4 := by decide

/-- A mask that keeps a slice whole fixes that slice of every word the row matches. -/
theorem Row.extractLsb'_of_matches {r : Row} {w : Word} {start len : Nat} (h : r.matches w = true)
    (hm : r.mask.extractLsb' start len = BitVec.allOnes len) :
    w.extractLsb' start len = r.pattern.extractLsb' start len := by
  rw [← beq_iff_eq.1 h, BitVec.extractLsb'_and, hm, BitVec.and_allOnes]

theorem Row.famField_of_matches {r : Row} {w : Word} (h : r.matches w = true) (hr : r ∈ opcodeMap) :
    famField w = famField r.pattern :=
  Row.extractLsb'_of_matches h (famField_mask_eq_allOnes r hr)

theorem Row.nField_of_matches {r : Row} {w : Word} (h : r.matches w = true) (hm : r.mask = 0xF00F) :
    nField w = nField r.pattern :=
  Row.extractLsb'_of_matches h (hm ▸ by decide)

theorem Row.kkField_of_matches {r : Row} {w : Word} (h : r.matches w = true) (hm : r.mask = 0xF0FF) :
    kkField w = kkField r.pattern :=
  Row.extractLsb'_of_matches h (hm ▸ by decide)

theorem Row.eq_pattern_of_matches {r : Row} {w : Word} (h : r.matches w = true) (hm : r.mask = 0xFFFF) :
    w = r.pattern := by
  rw [← beq_iff_eq.1 h, hm]
  exact (BitVec.and_allOnes).symm

end Sys2Proof
end

section
/-! The decoder against the opcode map (spec/30_encoding.md R94, R95, R96, R100). -/

namespace Sys2Proof

/-- What a decoder may answer for `w`: an instruction whose word is `w`, or `UnknownOpcode` with `w`. -/
def AnswersFor (w : Word) (o : Except DecodeError Instr) : Prop :=
  (∃ i, o = .ok i ∧ encode i = w) ∨ o = .error (.unknownOpcode w)

theorem AnswersFor.ok {w : Word} {i : Instr} (h : encode i = w) : AnswersFor w (.ok i) := .inl ⟨i, rfl, h⟩

theorem AnswersFor.unknown (w : Word) : AnswersFor w (.error (.unknownOpcode w)) := .inr rfl

/-- A field equal to a constant as a number puts the constant in the word's format. -/
theorem wordNNN_of_fam {w : Word} {fam : Nibble} (hf : (famField w).toNat = fam.toNat) :
    wordNNN fam (nnnField w) = w := by
  rw [← BitVec.eq_of_toNat_eq hf, wordNNN_fields]

theorem wordXKK_of_fam {w : Word} {fam : Nibble} (hf : (famField w).toNat = fam.toNat) :
    wordXKK fam (xField w) (kkField w) = w := by
  rw [← BitVec.eq_of_toNat_eq hf, wordXKK_fields]

theorem wordXKK_of_fam_kk {w : Word} {fam : Nibble} {kk : Byte} (hf : (famField w).toNat = fam.toNat)
    (hk : (kkField w).toNat = kk.toNat) : wordXKK fam (xField w) kk = w := by
  rw [← BitVec.eq_of_toNat_eq hk, wordXKK_of_fam hf]

theorem wordXYN_of_fam {w : Word} {fam : Nibble} (hf : (famField w).toNat = fam.toNat) :
    wordXYN fam (xField w) (yField w) (nField w) = w := by
  rw [← BitVec.eq_of_toNat_eq hf, wordXYN_fields]

theorem wordXYN_of_fam_n {w : Word} {fam n : Nibble} (hf : (famField w).toNat = fam.toNat)
    (hn : (nField w).toNat = n.toNat) : wordXYN fam (xField w) (yField w) n = w := by
  rw [← BitVec.eq_of_toNat_eq hn, wordXYN_of_fam hf]

theorem decodeFamily0_answersFor (w : Word) : AnswersFor w (decodeFamily0 w) := by
  unfold decodeFamily0
  split
  · next h => exact .ok h.symm
  split
  · next h => exact .ok h.symm
  · exact .unknown w

theorem decodeLow0_answersFor {w : Word} {mk : Reg → Reg → Instr}
    (hmk : nField w = 0 → encode (mk (xField w) (yField w)) = w) : AnswersFor w (decodeLow0 mk w) := by
  unfold decodeLow0
  split
  · next h => exact .ok (hmk h)
  · exact .unknown w

theorem decodeFamily8_answersFor {w : Word} (hf : (famField w).toNat = 0x8) : AnswersFor w (decodeFamily8 w) := by
  unfold decodeFamily8
  split
  case h_10 => exact .unknown w
  all_goals next hn => exact .ok (wordXYN_of_fam_n hf hn)

theorem decodeFamilyE_answersFor {w : Word} (hf : (famField w).toNat = 0xE) : AnswersFor w (decodeFamilyE w) := by
  unfold decodeFamilyE
  split
  case h_3 => exact .unknown w
  all_goals next hk => exact .ok (wordXKK_of_fam_kk hf hk)

theorem decodeFamilyF_answersFor {w : Word} (hf : (famField w).toNat = 0xF) : AnswersFor w (decodeFamilyF w) := by
  unfold decodeFamilyF
  split
  case h_10 => exact .unknown w
  all_goals next hk => exact .ok (wordXKK_of_fam_kk hf hk)

/-- Everything the decoder can answer (R94, R100). The cases `h_1` to `h_16` are the families 0 to F in order, `h_17` the arm
that no 4-bit family reaches. -/
theorem decode_answersFor (w : Word) : AnswersFor w (decode w) := by
  unfold decode
  split <;> rename_i hf
  case h_1 => exact decodeFamily0_answersFor w
  case h_2 | h_3 | h_11 | h_12 => exact .ok (wordNNN_of_fam hf)
  case h_4 | h_5 | h_7 | h_8 | h_13 => exact .ok (wordXKK_of_fam hf)
  case h_6 | h_10 => exact decodeLow0_answersFor fun hn => wordXYN_of_fam_n hf (congrArg BitVec.toNat hn)
  case h_9 => exact decodeFamily8_answersFor hf
  case h_14 => exact .ok (wordXYN_of_fam hf)
  case h_15 => exact decodeFamilyE_answersFor hf
  case h_16 => exact decodeFamilyF_answersFor hf
  case h_17 => exact .unknown w

/-- A decoded word is the encoding of what it decodes to (R94, R98). -/
theorem encode_of_decode {w : Word} {i : Instr} (h : decode w = .ok i) : encode i = w := by
  obtain ⟨j, hj, hw⟩ | he := decode_answersFor w
  · cases hj.symm.trans h
    exact hw
  · cases he.symm.trans h

open Laws.EncodingRow in
/-- The encoded word of every instruction matches the instruction's own row (R95). -/
theorem row_matches_encode (i : Instr) : i.row.matches (encode i) = true := by
  cases i
  case cls => exact cls
  case ret => exact ret
  case jp | call | ldI | jpV0 => exact of_eq (mask_wordNNN ..)
  case seImm | sneImm | ldImm | addImm | rnd => exact of_eq (mask_wordXKK ..)
  case seReg | ldReg | orReg | andReg | xorReg | addReg | subReg | shr | subnReg | shl | sneReg =>
    exact of_eq (mask_wordXYF ..)
  case drw => exact of_eq (mask_wordXYN ..)
  case skp | sknp | ldVxDT | ldVxK | ldDT | ldST | addI | ldF | ldB | stRegs | ldRegs =>
    exact of_eq (mask_wordXFF ..)

theorem row_matches_of_decode {w : Word} {i : Instr} (h : decode w = .ok i) : i.row.matches w = true :=
  encode_of_decode h ▸ row_matches_encode i

theorem row_mem_opcodeMap (i : Instr) : i.row ∈ opcodeMap := by
  cases i <;> simp [Instr.row, opcodeMap]

/-- The match value of a row is itself a word of that row. -/
theorem row_of_decode_pattern : ∀ r ∈ opcodeMap, (decode r.pattern).map Instr.row = .ok r := by decide

theorem exists_row_eq_of_mem {r : Row} (hr : r ∈ opcodeMap) : ∃ i : Instr, i.row = r := by
  have h := row_of_decode_pattern r hr
  cases hd : decode r.pattern with
  | error e => rw [hd] at h; cases h
  | ok i => rw [hd] at h; exact ⟨i, Except.ok.inj h⟩

/-- A word that an instruction's row matches decodes to an instruction of that row (R95): the mask fixes the family and what
the family's decoder looks at. -/
theorem exists_decode_of_row_matches {w : Word} (i : Instr) (h : i.row.matches w = true) :
    ∃ j, decode w = .ok j ∧ j.row = i.row := by
  have hf : famField w = famField i.row.pattern := Row.famField_of_matches h (row_mem_opcodeMap i)
  cases i
  case cls | ret =>
    obtain rfl := Row.eq_pattern_of_matches h rfl
    exact ⟨_, rfl, rfl⟩
  case jp | call | ldI | jpV0 | seImm | sneImm | ldImm | addImm | rnd | drw =>
    simp [decode, hf, famField_toNat, Instr.row]
  case seReg | sneReg =>
    have hn := Row.nField_of_matches h rfl
    simp [decode, hf, famField_toNat, decodeLow0, hn, ← BitVec.toNat_inj, nField_toNat, Instr.row]
  case ldReg | orReg | andReg | xorReg | addReg | subReg | shr | subnReg | shl =>
    have hn := Row.nField_of_matches h rfl
    simp [decode, hf, famField_toNat, decodeFamily8, hn, nField_toNat, Instr.row]
  case skp | sknp =>
    have hk := Row.kkField_of_matches h rfl
    simp [decode, hf, famField_toNat, decodeFamilyE, hk, kkField_toNat, Instr.row]
  case ldVxDT | ldVxK | ldDT | ldST | addI | ldF | ldB | stRegs | ldRegs =>
    have hk := Row.kkField_of_matches h rfl
    simp [decode, hf, famField_toNat, decodeFamilyF, hk, kkField_toNat, Instr.row]

/-- Settles O6: a matched row is decoded, and a decoded word is its instruction's encoding, which that row matches. -/
theorem decodeFollowsOpcodeMap : Obligations.DecodeFollowsOpcodeMap := by
  intro w r hr
  constructor
  · intro h
    obtain ⟨i, rfl⟩ := exists_row_eq_of_mem hr
    exact exists_decode_of_row_matches i (beq_iff_eq.2 h)
  · rintro ⟨i, hi, rfl⟩
    exact beq_iff_eq.1 (row_matches_of_decode hi)

theorem wellFormedWord_iff {w : Word} : wellFormedWord w = true ↔ ∃ i, decode w = .ok i := by
  rw [wellFormedWord, List.any_eq_true]
  constructor
  · rintro ⟨r, hr, h⟩
    obtain ⟨i, hi, -⟩ := (decodeFollowsOpcodeMap w r hr).1 (beq_iff_eq.1 h)
    exact ⟨i, hi⟩
  · rintro ⟨i, hi⟩
    exact ⟨i.row, row_mem_opcodeMap i, row_matches_of_decode hi⟩

/-- Settles O7: the decoder's answer is an instruction exactly for the well-formed words. -/
theorem decodingIsTotal : Obligations.DecodingIsTotal := by
  intro w
  obtain ⟨i, hi, -⟩ | he := decode_answersFor w
  · exact .inl ⟨⟨i, hi⟩, wellFormedWord_iff.2 ⟨i, hi⟩⟩
  · refine .inr ⟨he, Bool.eq_false_iff.2 fun hw => ?_⟩
    obtain ⟨i, hi⟩ := wellFormedWord_iff.1 hw
    cases he.symm.trans hi

end Sys2Proof
end

section
/-! The jump at the execute stage (spec/41_flow.md R141) and the zero-extended address (spec/30_encoding.md R93). -/

namespace Sys2Proof.Machine

/-- Zero extension keeps the number (R6). -/
@[simp] theorem zextAddr_toNat (nnn : Addr) : (zextAddr nnn).toNat = nnn.toNat :=
  BitVec.toNat_setWidth_of_le (by decide)

theorem exec_jp (nnn : Addr) (s : State) : exec (.jp nnn) s = .next { s with pc := zextAddr nnn } := rfl

/-- Settles O15: JP is one update of `PC`, by an address whose extension is the same number. -/
theorem jpSetsProgramCounter : Obligations.JpSetsProgramCounter :=
  fun nnn s => ⟨{ s with pc := zextAddr nnn }, exec_jp nnn s, rfl, zextAddr_toNat nnn⟩

end Sys2Proof.Machine
end

section
/-! The skips on registers at the execute stage (spec/42_skip.md R150 to R154). -/

namespace Sys2Proof.Machine

theorem exec_seImm (x : Reg) (kk : Byte) (s : State) : exec (.seImm x kk) s = .next (s.skipIf (s.reg x == kk)) := rfl

theorem exec_sneImm (x : Reg) (kk : Byte) (s : State) : exec (.sneImm x kk) s = .next (s.skipIf (s.reg x != kk)) := rfl

theorem exec_seReg (x y : Reg) (s : State) : exec (.seReg x y) s = .next (s.skipIf (s.reg x == s.reg y)) := rfl

theorem exec_sneReg (x y : Reg) (s : State) : exec (.sneReg x y) s = .next (s.skipIf (s.reg x != s.reg y)) := rfl

/-- R154 with the skip's Boolean read as the condition `c` that it decides. -/
theorem State.skipIf_pc_of_iff (s : State) {taken : Bool} {c : Prop} [Decidable c] (h : taken = true ↔ c) :
    (s.skipIf taken).pc = if c then s.pc + 4 else s.pc + 2 := by
  rw [State.skipIf_pc, apply_ite (s.pc + ·)]
  exact if_congr h rfl rfl

/-- What an instruction does whose whole meaning is a skip on `c`: it writes `PC` only, as R154 says. -/
theorem exists_next_of_exec_eq_skipIf {i : Instr} {s : State} {taken : Bool} {c : Prop} [Decidable c]
    (hexec : exec i s = .next (s.skipIf taken)) (h : taken = true ↔ c) :
    ∃ t, exec i s = .next t ∧ t = { s with pc := t.pc } ∧ t.pc = if c then s.pc + 4 else s.pc + 2 :=
  ⟨s.skipIf taken, hexec, rfl, s.skipIf_pc_of_iff h⟩

/-- Settles O18: each of the four is a skip, on a Boolean test that decides its condition. -/
theorem registerSkips : Obligations.RegisterSkips := by
  intro x y kk s
  refine ⟨?seImm, ?sneImm, ?seReg, ?sneReg⟩
  case seImm => exact exists_next_of_exec_eq_skipIf (exec_seImm x kk s) beq_iff_eq
  case sneImm => exact exists_next_of_exec_eq_skipIf (exec_sneImm x kk s) bne_iff_ne
  case seReg => exact exists_next_of_exec_eq_skipIf (exec_seReg x y s) beq_iff_eq
  case sneReg => exact exists_next_of_exec_eq_skipIf (exec_sneReg x y s) bne_iff_ne

end Sys2Proof.Machine
end

section
/-! The register loads, ADD Vx, kk and the bitwise logic at the execute stage (spec/43_alu.md R161 to R166). -/

namespace Sys2Proof.Machine

theorem exec_ldImm (x : Reg) (kk : Byte) (s : State) : exec (.ldImm x kk) s = .next (s.setReg x kk).advance := rfl

theorem exec_ldReg (x y : Reg) (s : State) : exec (.ldReg x y) s = .next (s.setReg x (s.reg y)).advance := rfl

theorem exec_addImm (x : Reg) (kk : Byte) (s : State) :
    exec (.addImm x kk) s = .next (s.setReg x (s.reg x + kk)).advance := rfl

theorem exec_orReg (x y : Reg) (s : State) :
    exec (.orReg x y) s = .next (s.setReg x (s.reg x ||| s.reg y)).advance := rfl

theorem exec_andReg (x y : Reg) (s : State) :
    exec (.andReg x y) s = .next (s.setReg x (s.reg x &&& s.reg y)).advance := rfl

theorem exec_xorReg (x y : Reg) (s : State) :
    exec (.xorReg x y) s = .next (s.setReg x (s.reg x ^^^ s.reg y)).advance := rfl

theorem State.setReg_reg_same (s : State) (x : Reg) (b : Byte) : (s.setReg x b).reg x = b := by
  rw [State.setReg_reg, if_pos rfl]

theorem State.setReg_reg_of_ne (s : State) {x r : Reg} (b : Byte) (h : r ≠ x) : (s.setReg x b).reg r = s.reg r := by
  rw [State.setReg_reg, if_neg h]

/-- What an instruction does whose whole meaning is one register write and the advance of `PC`. -/
theorem exists_next_of_exec_eq_setReg {i : Instr} {s : State} {x : Reg} {b : Byte}
    (hexec : exec i s = .next (s.setReg x b).advance) :
    ∃ t, exec i s = .next t ∧ t = { s with v := t.v, pc := s.pc + 2 } ∧ t.reg x = b ∧ ∀ r, r ≠ x → t.reg r = s.reg r :=
  ⟨(s.setReg x b).advance, hexec, rfl, s.setReg_reg_same x b, fun _ => s.setReg_reg_of_ne b⟩

/-- The same with the written byte given by its bits. -/
theorem exists_next_of_exec_eq_setReg_bits {i : Instr} {s : State} {x : Reg} {b : Byte} {bit : Nat → Bool}
    (hexec : exec i s = .next (s.setReg x b).advance) (hbit : ∀ k, b.getLsbD k = bit k) :
    ∃ t, exec i s = .next t ∧ t = { s with v := t.v, pc := s.pc + 2 } ∧ (∀ k, (t.reg x).getLsbD k = bit k) ∧
      ∀ r, r ≠ x → t.reg r = s.reg r := by
  obtain ⟨t, hnext, hframe, hx, hother⟩ := exists_next_of_exec_eq_setReg hexec
  exact ⟨t, hnext, hframe, hx ▸ hbit, hother⟩

/-- Settles O19: each load is one register write. -/
theorem registerLoads : Obligations.RegisterLoads := by
  intro x y kk s
  constructor
  · exact exists_next_of_exec_eq_setReg (exec_ldImm x kk s)
  · exact exists_next_of_exec_eq_setReg (exec_ldReg x y s)

/-- Settles O20: the byte written is a sum of bytes, which is the sum of their numbers modulo 256. -/
theorem addImmediateWraps : Obligations.AddImmediateWraps := by
  intro x kk s
  obtain ⟨t, hnext, hframe, hx, hother⟩ := exists_next_of_exec_eq_setReg (exec_addImm x kk s)
  have hsum : (t.reg x).toNat = ((s.reg x).toNat + kk.toNat) % 256 := by
    rw [hx]
    exact BitVec.toNat_add (s.reg x) kk
  exact ⟨t, hnext, hframe, hsum, hother⟩

/-- Settles O21: each of the three writes a byte whose bits are its Boolean operation on the operands' bits. -/
theorem bitwiseLogic : Obligations.BitwiseLogic := by
  intro x y s
  refine ⟨?or, ?and, ?xor⟩
  case or => exact exists_next_of_exec_eq_setReg_bits (exec_orReg x y s) fun _ => BitVec.getLsbD_or
  case and => exact exists_next_of_exec_eq_setReg_bits (exec_andReg x y s) fun _ => BitVec.getLsbD_and
  case xor => exact exists_next_of_exec_eq_setReg_bits (exec_xorReg x y s) fun _ => BitVec.getLsbD_xor

end Sys2Proof.Machine
end

section
/-! The index register loads at the execute stage (spec/44_index.md R180, R182). -/

namespace Sys2Proof.Machine

/-- The product of R182 fits in 16 bits: it is at most 1275. -/
@[simp] theorem glyphAddress_toNat (b : Byte) : (glyphAddress b).toNat = b.toNat * 5 := by
  have hb : b.toNat < 256 := b.isLt
  rw [glyphAddress, BitVec.toNat_ofNat, Nat.mod_eq_of_lt (by omega)]

theorem exec_ldI (nnn : Addr) (s : State) : exec (.ldI nnn) s = .next { s with i := zextAddr nnn }.advance := rfl

theorem exec_ldF (x : Reg) (s : State) : exec (.ldF x) s = .next { s with i := glyphAddress (s.reg x) }.advance := rfl

/-- What an instruction does whose whole meaning is one write of `I` and the advance of `PC`. -/
theorem exists_next_of_exec_eq_setIndex {i : Instr} {s : State} {a : Word} {n : Nat}
    (hexec : exec i s = .next { s with i := a }.advance) (ha : a.toNat = n) :
    ∃ t, exec i s = .next t ∧ t = { s with i := t.i, pc := s.pc + 2 } ∧ t.i.toNat = n :=
  ⟨{ s with i := a }.advance, hexec, rfl, ha⟩

/-- Settles O26: the address written is the constant, whose extension is the same number. -/
theorem loadIndex : Obligations.LoadIndex :=
  fun nnn s => exists_next_of_exec_eq_setIndex (exec_ldI nnn s) (zextAddr_toNat nnn)

/-- Settles O28: the address written is the product of R182, which does not wrap. -/
theorem loadGlyphAddress : Obligations.LoadGlyphAddress :=
  fun x s => exists_next_of_exec_eq_setIndex (exec_ldF x s) (glyphAddress_toNat (s.reg x))

end Sys2Proof.Machine
end

section
/-! The timer instructions at the execute stage (spec/48_timers.md R220 to R222). -/

namespace Sys2Proof.Machine

theorem exec_ldVxDT (x : Reg) (s : State) : exec (.ldVxDT x) s = .next (s.setReg x s.dt).advance := rfl

theorem exec_ldDT (x : Reg) (s : State) : exec (.ldDT x) s = .next { s with dt := s.reg x }.advance := rfl

theorem exec_ldST (x : Reg) (s : State) : exec (.ldST x) s = .next { s with st := s.reg x }.advance := rfl

/-- Settles O35: the read of `DT` is one register write, which leaves `DT` in the frame; each of the two others is one write of
its timer. -/
theorem timerInstructions : Obligations.TimerInstructions := by
  intro x s
  refine ⟨?readDelay, ?writeDelay, ?writeSound⟩
  case readDelay => exact exists_next_of_exec_eq_setReg (exec_ldVxDT x s)
  case writeDelay => exact ⟨{ s with dt := s.reg x }.advance, exec_ldDT x s, rfl⟩
  case writeSound => exact ⟨{ s with st := s.reg x }.advance, exec_ldST x s, rfl⟩

end Sys2Proof.Machine
end

section
/-! Every instruction and every step answers a next state, and the launch of an oversized image (spec/60_exceptions.md R245,
R249). -/

namespace Sys2Proof.Machine

theorem exists_storeAtI_eq_next (i : Instr) (bs : List Byte) (s : State) : ∃ t, storeAtI i bs s = .next t := by
  obtain ⟨-, -, h⟩ | ⟨-, h⟩ := storeAtI_cases (i := i) (bs := bs) (s := s) rfl <;> exact ⟨_, h⟩

/-- An engine fault is a next state too (R249), so the execute stage always has one. -/
theorem exists_exec_eq_next (i : Instr) (s : State) : ∃ t, exec i s = .next t := by
  cases i
  case ret => obtain ⟨-, h⟩ | ⟨_, -, h⟩ | ⟨-, h⟩ := execRet_cases s <;> exact ⟨_, h⟩
  case call nnn => obtain ⟨_, h⟩ | ⟨-, h⟩ := execCall_cases nnn s <;> exact ⟨_, h⟩
  case addI x => obtain ⟨-, h⟩ | ⟨-, h⟩ := execAddI_cases x s <;> exact ⟨_, h⟩
  case drw x y n => obtain ⟨-, h⟩ | ⟨-, -, h⟩ := execDrw_cases x y n s <;> exact ⟨_, h⟩
  case ldVxK x => obtain ⟨-, h⟩ | ⟨_, -, h⟩ := execLdVxK_cases x s <;> exact ⟨_, h⟩
  case ldRegs x => obtain ⟨-, h⟩ | ⟨-, h⟩ := execLdRegs_cases x s <;> exact ⟨_, h⟩
  case ldB | stRegs => exact exists_storeAtI_eq_next _ _ s
  all_goals exact ⟨_, rfl⟩

/-- A stop, a failed fetch, a self-jump and an unknown opcode are next states as they stand; an execute stage is the instruction's meaning. -/
theorem exists_cycleStages_eq_next (s : State) : ∃ t, cycleStages s = .next t := by
  obtain ⟨-, h⟩ | ⟨-, -, h⟩ | ⟨_, -, -, ⟨-, h⟩ | ⟨-, ⟨_, -, h⟩ | ⟨i, -, h⟩⟩⟩ := cycleStages_cases s
  case inr.inr.inr.inr => exact h ▸ exists_exec_eq_next i s
  all_goals exact ⟨_, h⟩

theorem exists_step_eq_next (s : State) : ∃ t, step s = .next t := by
  rw [step]
  obtain ⟨-, h⟩ | ⟨-, h⟩ := cycle_cases s
  · exact h ▸ exists_cycleStages_eq_next s.beginCycle
  · exact ⟨s, h⟩

theorem step_ne_fault (s : State) (f : Fault) : step s ≠ .fault f := by
  obtain ⟨t, ht⟩ := exists_step_eq_next s
  rw [ht]
  nofun

theorem State.launch_of_length_gt (font : Vector Byte 80) {rom : List Byte} (h : rom.length > 3584) :
    State.launch font rom = .fault .loadError :=
  if_neg (Nat.not_le_of_gt h)

/-- Settles O2: the launch checks the length, and a step, which always answers a next state, raises no fault. -/
theorem oversizedImageIsLoadError : Obligations.OversizedImageIsLoadError :=
  ⟨fun font _ => State.launch_of_length_gt font, fun s => step_ne_fault s .loadError⟩

end Sys2Proof.Machine
end

section
/-! Decoding what the encoder wrote: the fields of a word in each format (spec/30_encoding.md R91, R92), and the dispatch on
them (R94). -/

namespace Sys2Proof

/-! ### The fields of a word in a format -/

@[simp] theorem famField_wordNNN (fam : Nibble) (nnn : Addr) : famField (wordNNN fam nnn) = fam :=
  BitVec.extractLsb'_append_eq_left

@[simp] theorem nnnField_wordNNN (fam : Nibble) (nnn : Addr) : nnnField (wordNNN fam nnn) = nnn :=
  BitVec.extractLsb'_append_eq_right

/-- A word of format XKK is one of format NNN, whose constant is `x` and `kk` side by side. -/
theorem wordXKK_eq_wordNNN (fam : Nibble) (x : Reg) (kk : Byte) :
    wordXKK fam x kk = wordNNN fam ((BitVec.ofFin x : Nibble) ++ kk) := BitVec.append_assoc ..

/-- A word of format XYN is one of format XKK, whose byte is `y` and `n` side by side. -/
theorem wordXYN_eq_wordXKK (fam : Nibble) (x y : Reg) (n : Nibble) :
    wordXYN fam x y n = wordXKK fam x ((BitVec.ofFin y : Nibble) ++ n) := BitVec.append_assoc ..

@[simp] theorem famField_wordXKK (fam : Nibble) (x : Reg) (kk : Byte) : famField (wordXKK fam x kk) = fam := by
  rw [wordXKK_eq_wordNNN, famField_wordNNN]

@[simp] theorem kkField_wordXKK (fam : Nibble) (x : Reg) (kk : Byte) : kkField (wordXKK fam x kk) = kk :=
  BitVec.extractLsb'_append_eq_right

@[simp] theorem xField_wordXKK (fam : Nibble) (x : Reg) (kk : Byte) : xField (wordXKK fam x kk) = x := by
  rw [xField, wordXKK, BitVec.extractLsb'_append_eq_of_le (by decide), BitVec.extractLsb'_append_eq_right]

@[simp] theorem famField_wordXYN (fam : Nibble) (x y : Reg) (n : Nibble) : famField (wordXYN fam x y n) = fam := by
  rw [wordXYN_eq_wordXKK, famField_wordXKK]

@[simp] theorem xField_wordXYN (fam : Nibble) (x y : Reg) (n : Nibble) : xField (wordXYN fam x y n) = x := by
  rw [wordXYN_eq_wordXKK, xField_wordXKK]

@[simp] theorem nField_wordXYN (fam : Nibble) (x y : Reg) (n : Nibble) : nField (wordXYN fam x y n) = n :=
  BitVec.extractLsb'_append_eq_right

@[simp] theorem yField_wordXYN (fam : Nibble) (x y : Reg) (n : Nibble) : yField (wordXYN fam x y n) = y := by
  rw [yField, wordXYN, BitVec.extractLsb'_append_eq_of_le (by decide), BitVec.extractLsb'_append_eq_right]

/-- The two bytes of a word in memory order make the word again (R63). -/
theorem wordOfBytes_bytes (w : Word) : wordOfBytes (w.extractLsb' 8 8) (w.extractLsb' 0 8) = w :=
  (BitVec.extractLsb'_append_extractLsb'_eq_extractLsb' rfl).trans BitVec.extractLsb'_eq_self

/-! ### The decoder on an encoded instruction -/

/-- The dispatch reads off the family, and in families 5, 8, 9, E and F the operation, that the format put there. -/
theorem decode_encode (i : Instr) : decode (encode i) = .ok i := by
  cases i
  case cls | ret => rfl
  case jp | call | ldI | jpV0 => simp [encode, decode]
  case seImm | sneImm | ldImm | addImm | rnd => simp [encode, decode]
  case seReg | sneReg => simp [encode, decode, decodeLow0]
  case ldReg | orReg | andReg | xorReg | addReg | subReg | shr | subnReg | shl => simp [encode, decode, decodeFamily8]
  case drw => simp [encode, decode]
  case skp | sknp => simp [encode, decode, decodeFamilyE]
  case ldVxDT | ldVxK | ldDT | ldST | addI | ldF | ldB | stRegs | ldRegs => simp [encode, decode, decodeFamilyF]

/-- Decoding bytes that begin with a word's two is decoding that word. -/
theorem decodeBytes_of_decode {w : Word} {i : Instr} (h : decode w = .ok i) (rest : List Byte) :
    decodeBytes (bytesOfWord w ++ rest) = .ok (i, rest) := by
  simp only [bytesOfWord, List.cons_append, List.nil_append, decodeBytes, wordOfBytes_bytes, h]

/-- Settles O4: the decoder gives the instruction of the encoded word, and the byte form reads that word first. -/
theorem decodeOfEncode : Obligations.DecodeOfEncode :=
  fun i => ⟨decode_encode i, decodeBytes_of_decode (decode_encode i)⟩

/-- Settles O5: everything the decoder answers with an instruction is that instruction's word. -/
theorem encodeOfDecode : Obligations.EncodeOfDecode := fun _ _ => encode_of_decode

/-- Settles O9: ten of the words are encodings, and the two others match no row. -/
theorem decodeOfWrittenWords : Obligations.DecodeOfWrittenWords :=
  ⟨decode_encode .ret, decode_encode (.jp 0xABC), decode_encode (.sneImm 0 0x13), decode_encode (.subnReg 15 1),
    decode_encode (.ldI 0x123), decode_encode (.rnd 0 0x0F), decode_encode (.drw 5 10 7), decode_encode (.sknp 5),
    decode_encode (.ldST 2), decode_encode (.ldRegs 2), rfl, rfl⟩

end Sys2Proof
end

section
/-! The illegal words, family by family (spec/30_encoding.md R96). -/

namespace Sys2Proof

theorem decodeFamily0_eq_unknown (w : Word) :
    decodeFamily0 w = .error (.unknownOpcode w) ↔ w.toNat ≠ 0x00E0 ∧ w.toNat ≠ 0x00EE := by
  unfold decodeFamily0
  split
  · next h => simp [h]
  · next h =>
    have hcls : w.toNat ≠ 0x00E0 := fun e => h (BitVec.eq_of_toNat_eq e)
    split
    · next h => simp [h]
    · next h =>
      have hret : w.toNat ≠ 0x00EE := fun e => h (BitVec.eq_of_toNat_eq e)
      exact iff_of_true rfl ⟨hcls, hret⟩

theorem decodeLow0_eq_unknown (mk : Reg → Reg → Instr) (w : Word) :
    decodeLow0 mk w = .error (.unknownOpcode w) ↔ w.toNat % 0x10 ≠ 0 := by
  rw [← nField_toNat, decodeLow0]
  split
  · next h => simp [h]
  · next h => exact iff_of_true rfl fun e => h (BitVec.eq_of_toNat_eq e)

theorem decodeFamily8_eq_unknown (w : Word) :
    decodeFamily8 w = .error (.unknownOpcode w) ↔ w.toNat % 0x10 ∈ [0x8, 0x9, 0xA, 0xB, 0xC, 0xD, 0xF] := by
  have hlt : (nField w).toNat < 16 := (nField w).isLt
  rw [← nField_toNat, decodeFamily8]
  split
  case h_10 =>
    simp only [imp_false] at *
    simp
    omega
  all_goals next hn => simp [hn]

theorem decodeFamilyE_eq_unknown (w : Word) :
    decodeFamilyE w = .error (.unknownOpcode w) ↔ w.toNat % 0x100 ∉ [0x9E, 0xA1] := by
  rw [← kkField_toNat, decodeFamilyE]
  split
  case h_3 h1 h2 => simpa using ⟨h1, h2⟩
  all_goals next hk => simp [hk]

theorem decodeFamilyF_eq_unknown (w : Word) :
    decodeFamilyF w = .error (.unknownOpcode w) ↔
      w.toNat % 0x100 ∉ [0x07, 0x0A, 0x15, 0x18, 0x1E, 0x29, 0x33, 0x55, 0x65] := by
  rw [← kkField_toNat, decodeFamilyF]
  split
  case h_10 h1 h2 h3 h4 h5 h6 h7 h8 h9 => simpa using ⟨h1, h2, h3, h4, h5, h6, h7, h8, h9⟩
  all_goals next hk => simp [hk]

/-- Settles O8: families 0, 5, 8, 9, E and F refuse what their own decoders refuse, and the others refuse nothing. The cases
`h_1` to `h_16` are the families 0 to F in order, `h_17` the arm that no 4-bit family reaches. -/
theorem illegalWordsByFamily : Obligations.IllegalWordsByFamily := by
  intro w
  have hlt : (famField w).toNat < 16 := (famField w).isLt
  rw [← famField_toNat, decode]
  split
  case h_1 hf => simp [hf, decodeFamily0_eq_unknown]
  case h_6 hf | h_10 hf => simp [hf, decodeLow0_eq_unknown]
  case h_9 hf => simp [hf, decodeFamily8_eq_unknown]
  case h_15 hf => simp [hf, decodeFamilyE_eq_unknown]
  case h_16 hf => simp [hf, decodeFamilyF_eq_unknown]
  case h_17 =>
    simp only [imp_false] at *
    omega
  all_goals next hf => simp [hf]

end Sys2Proof
end

section
/-! The checked writes (spec/20_memory.md R65) and the launch's memory (spec/10_state.md R34, R35). -/

namespace Sys2Proof.Machine

/-- A write of bytes that lie in memory: what is written, what is left alone, and the canonical form. -/
theorem Memory.exists_write_eq_ok {m : Memory} (hm : Memory.wf m = true) {a : Nat} {bs : List Byte}
    (h : bs.length = 0 ∨ a + bs.length ≤ 4096) :
    ∃ m', Memory.write m a bs = .ok m' ∧ Memory.wf m' = true ∧
      (∀ k : Fin bs.length, Memory.get m' (a + k.val) = bs[k]) ∧
      ∀ c, c < a ∨ a + bs.length ≤ c → Memory.get m' c = Memory.get m c := by
  have hw : Memory.write m a bs = .ok (Memory.setBytes m a bs) := Memory.write_eq_ok.2 ⟨h, rfl⟩
  exact ⟨_, hw, Memory.wf_write hm hw, fun k => Memory.get_setBytes_inside hm k.isLt (by have := k.isLt; omega),
    fun _ => Memory.get_setBytes_outside m⟩

/-- Settles O12: the one-byte write is the list write of one byte. -/
theorem memWriteChecksBounds : Obligations.MemWriteChecksBounds := by
  intro m a b bs hm
  refine ⟨?byte, ?outside, ?inside⟩
  case byte =>
    split
    · exact Memory.write_eq_error.2 ⟨Nat.one_ne_zero, by simp only [List.length_singleton]; omega, by omega⟩
    · obtain ⟨m', hw, hwf, hin, hout⟩ := Memory.exists_write_eq_ok hm (a := a) (bs := [b]) (.inr (by simp; omega))
      refine ⟨m', hw, hwf, fun c => ?_⟩
      split
      · next h => subst h; exact hin 0
      · next h => exact hout c (by simp; omega)
  case outside => exact fun hne hlt => Memory.write_eq_error.2 ⟨hne, hlt, rfl⟩
  case inside => exact Memory.exists_write_eq_ok hm

end Sys2Proof.Machine
end

section
/-! The flag-writing arithmetic and the random draw at the execute stage (spec/43_alu.md R160, R167 to R173,
spec/45_random.md R190). -/

namespace Sys2Proof.Machine

theorem exec_addReg (x y : Reg) (s : State) :
    exec (.addReg x y) s =
      .next (s.setFlagThenReg (carryFlag (s.reg x) (s.reg y)) x (s.reg x + s.reg y)).advance := rfl

theorem exec_subReg (x y : Reg) (s : State) :
    exec (.subReg x y) s =
      .next (s.setFlagThenReg (noBorrowFlag (s.reg x) (s.reg y)) x (s.reg x - s.reg y)).advance := rfl

theorem exec_subnReg (x y : Reg) (s : State) :
    exec (.subnReg x y) s =
      .next (s.setFlagThenReg (noBorrowFlag (s.reg y) (s.reg x)) x (s.reg y - s.reg x)).advance := rfl

theorem exec_shr (x y : Reg) (s : State) :
    exec (.shr x y) s = .next (s.setFlagThenReg (shrFlag (s.reg x)) x (s.reg x >>> 1)).advance := rfl

theorem exec_shl (x y : Reg) (s : State) :
    exec (.shl x y) s = .next (s.setFlagThenReg (shlFlag (s.reg x)) x (s.reg x <<< 1)).advance := rfl

theorem exec_rnd (x : Reg) (kk : Byte) (s : State) :
    exec (.rnd x kk) s = .next (s.setReg x (s.now.rand &&& kk)).advance := rfl

/-! ### The numbers of the flags and of the results -/

theorem flagByte_decide_toNat (p : Prop) [Decidable p] : (flagByte (decide p)).toNat = if p then 1 else 0 := by
  rw [flagByte, apply_ite BitVec.toNat]
  exact if_congr decide_eq_true_iff rfl rfl

theorem carryFlag_toNat (a b : Byte) : (carryFlag a b).toNat = if a.toNat + b.toNat > 255 then 1 else 0 :=
  flagByte_decide_toNat _

theorem noBorrowFlag_toNat (a b : Byte) : (noBorrowFlag a b).toNat = if a.toNat ≥ b.toNat then 1 else 0 :=
  flagByte_decide_toNat _

theorem flagByte_toNat (b : Bool) : (flagByte b).toNat = b.toNat := by cases b <;> rfl

theorem shrFlag_toNat (a : Byte) : (shrFlag a).toNat = a.toNat % 2 := by
  rw [shrFlag, flagByte_toNat, BitVec.getLsbD, Nat.toNat_testBit, pow_zero, Nat.div_one]

theorem shlFlag_toNat (a : Byte) : (shlFlag a).toNat = a.toNat / 128 := by
  have ha : a.toNat < 256 := a.isLt
  rw [shlFlag, flagByte_toNat, BitVec.getLsbD, Nat.toNat_testBit]
  omega

theorem sub_toNat (a b : Byte) : (a - b).toNat = (a.toNat + 256 - b.toNat) % 256 := by
  have hb : b.toNat < 256 := b.isLt
  rw [BitVec.toNat_sub]
  omega

theorem shiftRight_one_toNat (a : Byte) : (a >>> 1).toNat = a.toNat / 2 := by
  rw [BitVec.toNat_ushiftRight, Nat.shiftRight_eq_div_pow, pow_one]

theorem shiftLeft_one_toNat (a : Byte) : (a <<< 1).toNat = 2 * a.toNat % 256 := by
  rw [BitVec.toNat_shiftLeft, Nat.shiftLeft_eq, pow_one, mul_comm]

/-- What an instruction does whose whole meaning is the flag, then the result, then the advance of `PC` (R160). -/
theorem exists_next_of_exec_eq_setFlagThenReg {i : Instr} {s : State} {x : Reg} {flag result : Byte} {nf nr : Nat}
    (hexec : exec i s = .next (s.setFlagThenReg flag x result).advance) (hr : result.toNat = nr) (hf : flag.toNat = nf) :
    ∃ t, exec i s = .next t ∧ t = { s with v := t.v, pc := s.pc + 2 } ∧ (t.reg x).toNat = nr ∧
      (x ≠ VF → (t.reg VF).toNat = nf) ∧ ∀ r, r ≠ x → r ≠ VF → t.reg r = s.reg r := by
  refine ⟨_, hexec, rfl, ?result, fun hx => ?flag, fun r hx hVF => ?others⟩ <;>
    rw [State.advance_reg, State.setFlagThenReg_reg]
  case result => rw [if_pos rfl, hr]
  case flag => rw [if_neg (Ne.symm hx), if_pos rfl, hf]
  case others => rw [if_neg hx, if_neg hVF]

/-- Settles O22: the flag is the carry of the sum, which is written after it. -/
theorem addSetsCarry : Obligations.AddSetsCarry := fun x y s =>
  exists_next_of_exec_eq_setFlagThenReg (exec_addReg x y s) (BitVec.toNat_add ..) (carryFlag_toNat ..)

/-- Settles O23: the flag compares the operands, and the difference of bytes borrows 256. -/
theorem subSetsNotBorrow : Obligations.SubSetsNotBorrow := fun x y s =>
  exists_next_of_exec_eq_setFlagThenReg (exec_subReg x y s) (sub_toNat ..) (noBorrowFlag_toNat ..)

/-- Settles O24: as SUB, with the operands exchanged. -/
theorem subnSetsNotBorrow : Obligations.SubnSetsNotBorrow := fun x y s =>
  exists_next_of_exec_eq_setFlagThenReg (exec_subnReg x y s) (sub_toNat ..) (noBorrowFlag_toNat ..)

/-- Settles O25: a shift by one halves or doubles, and its flag is the remainder or the eighth bit. -/
theorem shiftsByOne : Obligations.ShiftsByOne := fun x y s =>
  ⟨exists_next_of_exec_eq_setFlagThenReg (exec_shr x y s) (shiftRight_one_toNat _) (shrFlag_toNat _),
    exists_next_of_exec_eq_setFlagThenReg (exec_shl x y s) (shiftLeft_one_toNat _) (shlFlag_toNat _)⟩

/-- Settles O29: the byte written is the draw under the mask, whose bits outside the mask are 0. -/
theorem randomIsMaskedDraw : Obligations.RandomIsMaskedDraw := by
  intro x kk s
  obtain ⟨t, hnext, hframe, hx, hother⟩ := exists_next_of_exec_eq_setReg (exec_rnd x kk s)
  have hmask : t.reg x &&& ~~~kk = 0 := by
    rw [hx, BitVec.and_assoc, BitVec.and_not_self]
    exact BitVec.and_zero
  exact ⟨t, hnext, hframe, hx, hmask, hother⟩

end Sys2Proof.Machine
end

section
/-! Call, return and the indexed jump at the execute stage (spec/41_flow.md R140, R142, R143), and ADD I, Vx in range
(spec/44_index.md R181). -/

namespace Sys2Proof.Machine

theorem exec_jpV0 (nnn : Addr) (s : State) :
    exec (.jpV0 nnn) s = .next { s with pc := zextAddr nnn + zextByte (s.reg 0) } := rfl

@[simp] theorem zextByte_toNat (b : Byte) : (zextByte b).toNat = b.toNat := BitVec.toNat_setWidth_of_le (by decide)

/-- The target of JP V0 does not wrap: it is at most 0x10FE. -/
theorem zextAddr_add_zextByte_toNat (nnn : Addr) (b : Byte) : (zextAddr nnn + zextByte b).toNat = nnn.toNat + b.toNat := by
  have hn : nnn.toNat < 4096 := nnn.isLt
  have hb : b.toNat < 256 := b.isLt
  rw [BitVec.toNat_add, zextAddr_toNat, zextByte_toNat, Nat.mod_eq_of_lt (by omega)]

/-- Settles O14: of what RET can do, one occupied entry or more up to sixteen leaves the pop. -/
theorem retPopsTheStack : Obligations.RetPopsTheStack := by
  intro s k hk
  obtain ⟨h0, -⟩ | ⟨j, hj, hexec⟩ | ⟨hgt, -⟩ := execRet_cases s
  case inl => rw [h0] at hk; cases hk
  case inr.inl =>
    obtain rfl : j = k := Fin.ext (by omega)
    exact ⟨_, hexec, rfl, by bv_omega, rfl⟩
  case inr.inr => omega

/-- Settles O16: with a free entry CALL is the push and the jump. -/
theorem callPushesReturnAddress : Obligations.CallPushesReturnAddress := by
  intro nnn s k hk
  obtain ⟨hlt, hexec⟩ | ⟨hge, -⟩ := execCall_cases nnn s
  · refine ⟨_, hexec, rfl, ?entry, fun j hj => ?others, ?sp, zextAddr_toNat nnn⟩
    case entry => simp [hk]
    case others => simp [hk, Fin.val_inj, hj.symm]
    case sp => bv_omega
  · omega

/-- Settles O17: the sum of a 12-bit and an 8-bit number fits in 16 bits. -/
theorem jpV0AddsRegisterZero : Obligations.JpV0AddsRegisterZero :=
  fun nnn s => ⟨_, exec_jpV0 nnn s, rfl, zextAddr_add_zextByte_toNat nnn (s.reg 0)⟩

/-- Settles O27: the sum in range is one write of `I`. -/
theorem addIndexInRange : Obligations.AddIndexInRange := by
  intro x s hle
  obtain ⟨-, hexec⟩ | ⟨hgt, -⟩ := execAddI_cases x s
  · exact exists_next_of_exec_eq_setIndex hexec (Nat.mod_eq_of_lt (by omega))
  · omega

end Sys2Proof.Machine
end

section
/-! The keypad instructions at the execute stage (spec/47_keypad.md R211 to R213). -/

namespace Sys2Proof.Machine

theorem exec_skp (x : Reg) (s : State) : exec (.skp x) s = .next (s.skipIf (s.keyDown (s.reg x))) := rfl

theorem exec_sknp (x : Reg) (s : State) : exec (.sknp x) s = .next (s.skipIf (!s.keyDown (s.reg x))) := rfl

theorem State.keyDown_iff (s : State) (k : Byte) : s.keyDown k = true ↔ k ∈ s.now.keysDown := List.contains_iff_mem

/-- Settles O33: each is a skip, on whether the key is down or on its negation. -/
theorem keypadSkips : Obligations.KeypadSkips := by
  intro x s
  constructor
  · exact exists_next_of_exec_eq_skipIf (exec_skp x s) (s.keyDown_iff _)
  · have hup : (!s.keyDown (s.reg x)) = true ↔ s.reg x ∉ s.now.keysDown := by
      rw [Bool.not_eq_true', ← Bool.not_eq_true, s.keyDown_iff]
    obtain ⟨t, hnext, hframe, hpc⟩ := exists_next_of_exec_eq_skipIf (exec_sknp x s) hup
    exact ⟨t, hnext, hframe, hpc.trans (ite_not ..)⟩

/-- Settles O34: without a key LD Vx, K answers the state it had, with one it is a register write. -/
theorem waitForKey : Obligations.WaitForKey := by
  intro x s
  obtain ⟨hnone, hexec⟩ | ⟨j, hj, hexec⟩ := execLdVxK_cases x s
  · exact ⟨fun _ => hexec, fun k hk => absurd (hnone.symm.trans hk) nofun⟩
  · refine ⟨fun hnone => absurd (hnone.symm.trans hj) nofun, fun k hk => ?_⟩
    obtain rfl : j = k := Option.some.inj (hj.symm.trans hk)
    exact exists_next_of_exec_eq_setReg hexec

end Sys2Proof.Machine
end

section
/-! Any number of ticks (spec/48_timers.md R223, R224). -/

namespace Sys2Proof.Machine

theorem State.ticks_of_not_running {s : State} (h : s.status ≠ .running) (n : Nat) : s.ticks n = s := by
  induction n with
  | zero => rfl
  | succ n ih => rw [State.ticks, State.tick_of_not_running h, ih]

/-- `n` ticks while Running take `n` from each timer, stopping at zero (R223). -/
theorem State.ticks_timers {s : State} (h : s.status = .running) (n : Nat) :
    (s.ticks n).dt.toNat = s.dt.toNat - n ∧ (s.ticks n).st.toNat = s.st.toNat - n := by
  induction n generalizing s with
  | zero => exact ⟨rfl, rfl⟩
  | succ n ih =>
    rw [State.ticks, State.tick_of_running h]
    obtain ⟨hdt, hst⟩ := ih (s := { s with dt := tickTimer s.dt, st := tickTimer s.st }) h
    rw [hdt, hst, toNat_tickTimer, toNat_tickTimer]
    omega

/-- Settles O36: the timers by induction on the number of ticks, the rest by the frame of a tick. -/
theorem ticksStopAtZero : Obligations.TicksStopAtZero :=
  fun s n => ⟨fun h => ⟨s.ticks_eq n, State.ticks_timers h n⟩, fun h => State.ticks_of_not_running h n⟩

end Sys2Proof.Machine
end

section
/-! The memory transfers at the execute stage (spec/49_memxfer.md R230 to R233). -/

namespace Sys2Proof.Machine

theorem exec_ldB (x : Reg) (s : State) : exec (.ldB x) s = storeAtI (.ldB x) (bcdDigits (s.reg x)) s := rfl

theorem exec_stRegs (x : Reg) (s : State) : exec (.stRegs x) s = storeAtI (.stRegs x) (s.regsUpTo x) s := rfl

/-- What an instruction does whose whole meaning is a store from `I` up that lies in memory. -/
theorem exists_next_of_exec_eq_storeAtI {i : Instr} {s : State} {bs : List Byte} (hexec : exec i s = storeAtI i bs s)
    (hm : Memory.wf s.mem = true) (hle : s.i.toNat + bs.length ≤ 4096) :
    ∃ t, exec i s = .next t ∧ t = { s with mem := t.mem, pc := s.pc + 2 } ∧
      (∀ k (hk : k < bs.length), Memory.get t.mem (s.i.toNat + k) = bs[k]) ∧
      ∀ a, a < s.i.toNat ∨ s.i.toNat + bs.length ≤ a → Memory.get t.mem a = Memory.get s.mem a := by
  obtain ⟨-, hgt, -⟩ | ⟨-, hstore⟩ := storeAtI_cases hexec.symm
  · omega
  · exact ⟨_, hstore, rfl, fun k hk => Memory.get_setBytes_inside hm hk hle,
      fun _ => Memory.get_setBytes_outside s.mem⟩

/-- Settles O37: Fx33 is the store of the three digits. -/
theorem bcdStoresDigits : Obligations.BcdStoresDigits := by
  intro x s hm hle
  have hb : (s.reg x).toNat < 256 := (s.reg x).isLt
  obtain ⟨t, hnext, hframe, hin, hout⟩ := exists_next_of_exec_eq_storeAtI (exec_ldB x s) hm (by rw [length_bcdDigits]; omega)
  have hhundreds := congrArg BitVec.toNat (hin 0 (by simp))
  have htens := congrArg BitVec.toNat (hin 1 (by simp))
  have hones := congrArg BitVec.toNat (hin 2 (by simp))
  refine ⟨t, hnext, hframe, hhundreds.trans ?_, htens.trans ?_, hones.trans ?_, fun a ha => hout a ?_⟩
  case refine_4 => rw [length_bcdDigits]; omega
  all_goals exact Nat.mod_eq_of_lt (by omega)

/-- Settles O38: Fx55 is the store of the registers up to `V[x]`. -/
theorem storeRegisters : Obligations.StoreRegisters := by
  intro x s hm hle
  have hlen := s.length_regsUpTo x
  obtain ⟨t, hnext, hframe, hin, hout⟩ := exists_next_of_exec_eq_storeAtI (exec_stRegs x s) hm (by omega)
  refine ⟨t, hnext, hframe, fun r hr => ?_, fun a ha => hout a (by omega)⟩
  have hrx : r.val ≤ x.val := hr
  rw [hin r.val (by omega), s.regsUpTo_getElem x (by omega) r.isLt]

/-- Settles O13: the word read at two neighbouring addresses is made of the two registers stored there. -/
theorem storedBytesAreFetched : Obligations.StoredBytesAreFetched := by
  intro x j k s t hm hle hjk hkx hexec
  obtain ⟨t', hnext, -, hin, -⟩ := storeRegisters x s hm hle
  obtain rfl := Host.Outcome.next.inj (hexec.symm.trans hnext)
  have hkx' : k.val ≤ x.val := hkx
  have hk := hin k hkx
  rw [hjk, ← Nat.add_assoc] at hk
  exact Memory.readWord_eq_ok.2 ⟨by omega, by rw [hin j (Fin.le_def.2 (by omega)), hk]; rfl⟩

/-- Register `r` after Fx65: the byte at `I + r` up to `V[x]`, and itself above (R232). -/
theorem loadRegs_getBytes_getElem (s : State) (x r : Reg) :
    (loadRegs s.v (Memory.getBytes s.mem s.i.toNat (x.val + 1)))[r] =
      if r ≤ x then Memory.get s.mem (s.i.toNat + r.val) else s.reg r := by
  have hlen := Memory.length_getBytes s.mem s.i.toNat (x.val + 1)
  rw [loadRegs_getElem]
  simp only [Fin.le_def]
  split
  · rw [List.getD_eq_getElem _ _ (by omega), Memory.getElem_getBytes]
  · exact List.getD_eq_default _ _ (by omega)

/-- Settles O39: with the range in memory Fx65 is the load of the registers up to `V[x]`. -/
theorem loadRegisters : Obligations.LoadRegisters := by
  intro x s hle
  obtain ⟨-, hexec⟩ | ⟨hgt, -⟩ := execLdRegs_cases x s
  · exact ⟨_, hexec, rfl, fun r hr => (loadRegs_getBytes_getElem s x r).trans (if_pos hr),
      fun r hr => (loadRegs_getBytes_getElem s x r).trans (if_neg (not_le_of_gt hr))⟩
  · omega

end Sys2Proof.Machine
end

section
/-! The display instructions at the execute stage (spec/46_display.md R195 to R201). -/

namespace Sys2Proof.Machine

theorem exec_cls (s : State) : exec .cls s = .next ({ s with fb := Frame.clear }).render.advance := rfl

/-- Settles O30: CLS is the clear grid, its event and the advance of `PC`. -/
theorem clsClearsAndRenders : Obligations.ClsClearsAndRenders :=
  fun s => ⟨_, exec_cls s, rfl, Frame.pixel_clear⟩

theorem flagByte_eq_one_iff {b : Bool} : flagByte b = 1 ↔ b = true := by cases b <;> decide

theorem flagByte_eq_zero_or_one (b : Bool) : flagByte b = 0 ∨ flagByte b = 1 := by cases b <;> decide

/-- The bits of a sprite read from memory, as `spriteCovers` says them (R196, R198): at most 15 rows, so all distinct. -/
theorem spriteBit_getBytes_iff (s : State) (x y : Reg) (n : Nibble) (r : Fin 32) (c : Fin 64) :
    spriteBit (s.reg x).toNat (s.reg y).toNat (Memory.getBytes s.mem s.i.toNat n.toNat) r c = true ↔
      spriteCovers s x y n r c := by
  have hn : n.toNat < 16 := n.isLt
  have hlen := Memory.length_getBytes s.mem s.i.toNat n.toNat
  rw [spriteBit_iff _ _ _ (by omega)]
  constructor
  · rintro ⟨row, hrow, hr, hbit⟩
    rw [Memory.getElem_getBytes] at hbit
    obtain ⟨k, hc, hk⟩ := (rowBit_iff ..).1 hbit
    exact ⟨⟨row, by omega⟩, k, hr, hc, hk⟩
  · rintro ⟨row, k, hr, hc, hk⟩
    have hrow : row.val < (Memory.getBytes s.mem s.i.toNat n.toNat).length := by have := row.isLt; omega
    refine ⟨row.val, hrow, hr, ?_⟩
    rw [Memory.getElem_getBytes]
    exact (rowBit_iff ..).2 ⟨k, hc, hk⟩

/-- Settles O31: the drawn frame is the old one XOR the sprite's bits, and the flag is the hit of the whole draw. -/
theorem drawTogglesSpritePixels : Obligations.DrawTogglesSpritePixels := by
  intro x y n s hin
  have hn : n.toNat < 16 := n.isLt
  have hlen := Memory.length_getBytes s.mem s.i.toNat n.toNat
  obtain ⟨-, hexec⟩ | ⟨hne, hgt, -⟩ := execDrw_cases x y n s
  case inr => omega
  refine ⟨_, hexec, rfl, fun r c => ?pixels, ?bit, ?hit, fun r hr => State.setReg_reg_of_ne _ _ hr⟩
  case pixels =>
    rw [← spriteBit_getBytes_iff]
    simp only [State.advance_fb, State.render_fb, State.setReg_fb, pixel_blitRows]
    rw [Bool.xor_iff_ne, ne_eq, Bool.eq_iff_iff]
    exact not_iff.trans (not_iff_comm.trans Iff.comm)
  all_goals rw [State.advance_reg, State.render_reg, State.setReg_reg_same]
  case bit => exact flagByte_eq_zero_or_one _
  case hit => exact flagByte_eq_one_iff.trans (hit_blitRows _ _ _ _ (by omega))

/-- A sprite covers the same pixels from any state with the same memory, `I` and position. -/
theorem spriteCovers_congr {s t : State} {x y : Reg} (n : Nibble) (hmem : t.mem = s.mem) (hi : t.i = s.i)
    (hx : t.reg x = s.reg x) (hy : t.reg y = s.reg y) (r : Fin 32) (c : Fin 64) :
    spriteCovers t x y n r c ↔ spriteCovers s x y n r c := by
  simp only [spriteCovers, hmem, hi, hx, hy]

theorem iff_of_toggle_twice {a b c p : Prop} (hab : b ↔ (a ↔ ¬ p)) (hbc : c ↔ (b ↔ ¬ p)) : c ↔ a := by
  by_cases hp : p <;> simp_all

/-- Settles O32: toggling the same pixels twice gives the old frame, so the second draw unsets what the first one set. -/
theorem doubleDrawRestoresFrame : Obligations.DoubleDrawRestoresFrame := by
  intro x y n s hin
  obtain ⟨t, hnext, hframe, hpixels, -⟩ := drawTogglesSpritePixels x y n s hin
  have hmem : t.mem = s.mem := by rw [hframe]
  have hi : t.i = s.i := by rw [hframe]
  refine ⟨t, hnext, fun hx hy => ?_⟩
  obtain ⟨u, hnext', -, hpixels', -, hhit, -⟩ := drawTogglesSpritePixels x y n t (hi ▸ hin)
  have hfb : u.fb = s.fb := Frame.ext_pixel fun r c => Bool.eq_iff_iff.2 <|
    iff_of_toggle_twice (hpixels r c) ((hpixels' r c).trans (by rw [spriteCovers_congr n hmem hi hx hy]))
  refine ⟨u, hnext', hfb, hhit.trans ?_⟩
  rw [hfb]
  simp only [and_comm]

end Sys2Proof.Machine
end

section
/-! What an execution of any instruction can do to each part of the state (spec/10_state.md R21 to R29, spec/20_memory.md R74,
spec/60_exceptions.md R249): a fault, or a completed instruction that leaves alone what it is not named as writing. -/

namespace Sys2Proof.Machine

/-- The values that `PC` can have after an execution in `s`: a fault or a wait leaves it, RET takes an occupied entry. -/
inductive NextPc (s : State) : Word → Prop where
  | stay : NextPc s s.pc
  | advance : NextPc s (s.pc + 2)
  | skip : NextPc s (s.pc + 4)
  | jump (nnn : Addr) : NextPc s (zextAddr nnn)
  | jumpV0 (nnn : Addr) : NextPc s (zextAddr nnn + zextByte (s.reg 0))
  | ret (k : Fin 16) : k.val < s.sp.toNat → NextPc s s.stack[k]

theorem NextPc.skipIf (s : State) (taken : Bool) : NextPc s (s.skipIf taken).pc := by
  cases taken
  · exact .advance
  · exact .skip

/-- `t` is `s` but for the parts that a completed instruction `i` may write, and its `PC` is one of those of `NextPc`. Most
instructions advance `PC` and leave a part alone, so the default proofs are the advance and that the two states agree. -/
structure Completes (i : Instr) (s t : State) : Prop where
  reg : ∀ r, writesReg i r = false → t.reg r = s.reg r := by exact fun _ _ => rfl
  pc : NextPc s t.pc := by exact .advance
  index : writesIndex i = false → t.i = s.i := by exact fun _ => rfl
  sp : i ≠ .ret → (∀ nnn, i ≠ .call nnn) → t.sp = s.sp := by exact fun _ _ => rfl
  stack : (∀ nnn, i ≠ .call nnn) → t.stack = s.stack := by exact fun _ => rfl
  dt : (∀ x, i ≠ .ldDT x) → t.dt = s.dt := by exact fun _ => rfl
  st : (∀ x, i ≠ .ldST x) → t.st = s.st := by exact fun _ => rfl
  mem : ∀ a, a < s.i.toNat ∨ s.i.toNat + storeLength i ≤ a → Memory.get t.mem a = Memory.get s.mem a := by
    exact fun _ _ => rfl
  mem_wf : Memory.wf s.mem = true → Memory.wf t.mem = true := by exact fun h => h
  display : writesDisplay i = false → t.fb = s.fb ∧ t.renders = s.renders := by exact fun _ => ⟨rfl, rfl⟩
  event : writesDisplay i = true → t.renders = s.renders ++ [t.fb] := by exact nofun
  status : t.status = s.status := by exact rfl
  faultRec : t.faultRec = s.faultRec := by exact rfl
  inputs : t.inputs = s.inputs := by exact rfl
  now : t.now = s.now := by exact rfl
  cycles : t.cycles = s.cycles := by exact rfl

theorem Completes.setPc {i : Instr} {s : State} {p : Word} (hp : NextPc s p) (hd : writesDisplay i = false) :
    Completes i s { s with pc := p } where
  pc := hp
  event h := absurd (hd.symm.trans h) nofun

theorem Completes.setReg {i : Instr} {s : State} {x : Reg} {b : Byte} (hx : writesReg i x = true)
    (hd : writesDisplay i = false) : Completes i s (s.setReg x b).advance where
  reg r hr := State.setReg_reg_of_ne s b (ne_of_apply_ne (writesReg i) (by rw [hr, hx]; decide))
  event h := absurd (hd.symm.trans h) nofun

theorem Completes.setFlagThenReg {i : Instr} {s : State} {f b : Byte} {x : Reg} (hVF : writesReg i VF = true)
    (hx : writesReg i x = true) (hd : writesDisplay i = false) : Completes i s (s.setFlagThenReg f x b).advance where
  reg r hr := by
    have hrx : r ≠ x := ne_of_apply_ne (writesReg i) (by rw [hr, hx]; decide)
    have hrVF : r ≠ VF := ne_of_apply_ne (writesReg i) (by rw [hr, hVF]; decide)
    rw [State.advance_reg, State.setFlagThenReg_reg, if_neg hrx, if_neg hrVF]
  event h := absurd (hd.symm.trans h) nofun

theorem Completes.setIndex {i : Instr} {s : State} {a : Word} (hi : writesIndex i = true)
    (hd : writesDisplay i = false) : Completes i s { s with i := a }.advance where
  index h := absurd (h.symm.trans hi) nofun
  event h := absurd (hd.symm.trans h) nofun

theorem Completes.setMem {i : Instr} {s : State} {m : Memory} (hd : writesDisplay i = false)
    (hget : ∀ a, a < s.i.toNat ∨ s.i.toNat + storeLength i ≤ a → Memory.get m a = Memory.get s.mem a)
    (hwf : Memory.wf s.mem = true → Memory.wf m = true) : Completes i s { s with mem := m }.advance where
  mem := hget
  mem_wf := hwf
  event h := absurd (hd.symm.trans h) nofun

theorem Completes.setRegs {i : Instr} {s : State} {v : Vector Byte 16} (hd : writesDisplay i = false)
    (hv : ∀ r : Reg, writesReg i r = false → v[r] = s.reg r) : Completes i s { s with v := v }.advance where
  reg := hv
  event h := absurd (hd.symm.trans h) nofun

theorem completes_cls (s : State) (f : Frame) : Completes .cls s ({ s with fb := f }).render.advance where
  display := nofun
  event _ := rfl

theorem completes_drw (x y : Reg) (n : Nibble) (s : State) (f : Frame) (flag : Byte) :
    Completes (.drw x y n) s (({ s with fb := f }).setReg VF flag).render.advance where
  reg r hr := State.setReg_reg_of_ne _ _ (ne_of_beq_false hr)
  display := nofun
  event _ := rfl

theorem completes_ret {s : State} (n : Byte) {k : Fin 16} (hk : k.val < s.sp.toNat) :
    Completes .ret s { s with sp := n, pc := s.stack[k] } where
  pc := .ret k hk
  sp h := absurd rfl h

theorem completes_call (nnn : Addr) (s : State) (entries : Vector Word 16) (n : Byte) :
    Completes (.call nnn) s { s with stack := entries, sp := n, pc := zextAddr nnn } where
  pc := .jump nnn
  sp _ h := absurd rfl (h nnn)
  stack h := absurd rfl (h nnn)

theorem completes_ldDT (x : Reg) (s : State) (b : Byte) : Completes (.ldDT x) s { s with dt := b }.advance where
  dt h := absurd rfl (h x)

theorem completes_ldST (x : Reg) (s : State) (b : Byte) : Completes (.ldST x) s { s with st := b }.advance where
  st h := absurd rfl (h x)

/-- A fault taken by the instruction `i` (R249). -/
def Faults (i : Instr) (s t : State) : Prop :=
  ∃ cause addr, t = s.raise cause (encode i) addr ∧ cause ≠ .none

/-- The two ends of a store at `I`. -/
theorem faults_or_completes_of_storeAtI {i : Instr} {bs : List Byte} {s t : State} (h : storeAtI i bs s = .next t)
    (hlen : bs.length = storeLength i) (hd : writesDisplay i = false) : Faults i s t ∨ Completes i s t := by
  obtain ⟨-, -, ho⟩ | ⟨hin, ho⟩ := storeAtI_cases h <;> obtain rfl := Host.Outcome.next.inj ho
  · exact .inl ⟨_, _, rfl, nofun⟩
  · exact .inr (.setMem hd (fun a ha => Memory.get_setBytes_outside s.mem (hlen ▸ ha))
      fun hwf => Memory.wf_write hwf (Memory.write_eq_ok.2 ⟨hin, rfl⟩))

/-- What every instruction can do: take its fault, or complete. -/
theorem faults_or_completes_of_exec {i : Instr} {s t : State} (h : exec i s = .next t) : Faults i s t ∨ Completes i s t := by
  cases i
  case ret =>
    obtain ⟨-, e⟩ | ⟨k, hk, e⟩ | ⟨-, e⟩ := execRet_cases s <;> obtain rfl := Host.Outcome.next.inj (h.symm.trans e)
    · exact .inl ⟨_, _, rfl, nofun⟩
    · exact .inr (completes_ret _ (by omega))
    · exact .inl ⟨_, _, rfl, nofun⟩
  case call nnn =>
    obtain ⟨_, e⟩ | ⟨-, e⟩ := execCall_cases nnn s <;> obtain rfl := Host.Outcome.next.inj (h.symm.trans e)
    · exact .inr (completes_call ..)
    · exact .inl ⟨_, _, rfl, nofun⟩
  case addI x =>
    obtain ⟨-, e⟩ | ⟨-, e⟩ := execAddI_cases x s <;> obtain rfl := Host.Outcome.next.inj (h.symm.trans e)
    · exact .inr (.setIndex rfl rfl)
    · exact .inl ⟨_, _, rfl, nofun⟩
  case drw x y n =>
    obtain ⟨-, e⟩ | ⟨-, -, e⟩ := execDrw_cases x y n s <;> obtain rfl := Host.Outcome.next.inj (h.symm.trans e)
    · exact .inr (completes_drw ..)
    · exact .inl ⟨_, _, rfl, nofun⟩
  case ldVxK x =>
    obtain ⟨-, e⟩ | ⟨k, -, e⟩ := execLdVxK_cases x s <;> obtain rfl := Host.Outcome.next.inj (h.symm.trans e)
    · exact .inr (.setPc .stay rfl)
    · exact .inr (.setReg (beq_self_eq_true x) rfl)
  case ldRegs x =>
    obtain ⟨-, e⟩ | ⟨-, e⟩ := execLdRegs_cases x s <;> obtain rfl := Host.Outcome.next.inj (h.symm.trans e)
    · exact .inr (.setRegs rfl fun r hr =>
        (loadRegs_getBytes_getElem s x r).trans (if_neg (of_decide_eq_false hr)))
    · exact .inl ⟨_, _, rfl, nofun⟩
  case ldB x => exact faults_or_completes_of_storeAtI h rfl rfl
  case stRegs x => exact faults_or_completes_of_storeAtI h (s.length_regsUpTo x) rfl
  all_goals obtain rfl := Host.Outcome.next.inj h; apply Or.inr
  case cls => exact completes_cls ..
  case jp nnn => exact .setPc (.jump nnn) rfl
  case jpV0 nnn => exact .setPc (.jumpV0 nnn) rfl
  case seImm | sneImm | seReg | sneReg | skp | sknp => exact .setPc (.skipIf s _) rfl
  case ldImm x _ | addImm x _ | ldReg x _ | orReg x _ | andReg x _ | xorReg x _ | rnd x _ | ldVxDT x =>
    exact .setReg (beq_self_eq_true x) rfl
  case addReg | subReg | shr | subnReg | shl => exact .setFlagThenReg (by simp [writesReg]) (by simp [writesReg]) rfl
  case ldI | ldF => exact .setIndex rfl rfl
  case ldDT x => exact completes_ldDT ..
  case ldST x => exact completes_ldST ..

/-- Settles O40: a fault changes no register, a completed instruction those it writes. -/
theorem registersFrame : Obligations.RegistersFrame := by
  intro i s t r h hr
  obtain ⟨_, _, rfl, -⟩ | hc := faults_or_completes_of_exec h
  · rfl
  · exact hc.reg r hr

/-- Settles O41: by the frame of each of the parts. -/
theorem specialRegistersFrame : Obligations.SpecialRegistersFrame := by
  intro i s t h
  obtain ⟨_, _, rfl, -⟩ | hc := faults_or_completes_of_exec h
  · exact ⟨fun _ => rfl, fun _ _ => rfl, fun _ => rfl, fun _ => rfl, fun _ => rfl, rfl, rfl, rfl⟩
  · exact ⟨hc.index, hc.sp, hc.stack, hc.dt, hc.st, hc.inputs, hc.now, hc.cycles⟩

/-- Settles O42: a fault stores nothing, a completed instruction its stored length from `I` up. -/
theorem memoryFrame : Obligations.MemoryFrame := by
  intro i s t a h ha
  obtain ⟨_, _, rfl, -⟩ | hc := faults_or_completes_of_exec h
  · rfl
  · exact hc.mem a ha

/-- Settles O43: a state that is still Running took no fault, so the drawing instruction completed. -/
theorem displayFrame : Obligations.DisplayFrame := by
  intro i s t h
  obtain ⟨_, _, rfl, -⟩ | hc := faults_or_completes_of_exec h
  · exact ⟨fun _ => ⟨rfl, rfl⟩, fun _ _ => nofun⟩
  · exact ⟨hc.display, fun hw _ _ => hc.event hw⟩

/-- Settles O45: the execute stage and the step have a next state in every state. -/
theorem everyStepAnswersNext : Obligations.EveryStepAnswersNext :=
  ⟨exists_exec_eq_next, exists_step_eq_next⟩

end Sys2Proof.Machine
end

section
/-! The check of the execute stage (spec/40_cycle.md R129, spec/60_exceptions.md R240, R249). -/

namespace Sys2Proof.Machine

/-- What `exec i s` answers where the check of `i` answers `check`: exactly the fault record of the fault, or no fault. -/
def AnswersCheck (i : Instr) (s : State) (check : Option (Cause × Nat)) : Prop :=
  match check with
  | some (cause, addr) =>
    ∃ t, exec i s = .next t ∧ t = { s with status := .faulted, faultRec := t.faultRec } ∧
      t.faultRec.cause = cause ∧ t.faultRec.pc = s.pc ∧ t.faultRec.instr = encode i ∧ t.faultRec.addr.toNat = addr
  | none => ∃ t, exec i s = .next t ∧ t.status = s.status ∧ t.faultRec = s.faultRec

theorem AnswersCheck.of_raise {i : Instr} {s : State} {cause : Cause} {a : Nat}
    (hexec : exec i s = .next (s.raise cause (encode i) (BitVec.ofNat 16 a))) (ha : a < 0x10000)
    (hcheck : executeFault i s = some (cause, a)) : AnswersCheck i s (executeFault i s) := by
  rw [hcheck]
  exact ⟨_, hexec, rfl, rfl, rfl, rfl, Nat.mod_eq_of_lt ha⟩

theorem AnswersCheck.of_no_fault {i : Instr} {s t : State} (hexec : exec i s = .next t) (hstatus : t.status = s.status)
    (hrec : t.faultRec = s.faultRec) (hcheck : executeFault i s = none) : AnswersCheck i s (executeFault i s) := by
  rw [hcheck]
  exact ⟨t, hexec, hstatus, hrec⟩

/-- A store of `n + 1` bytes from an `I` in memory faults exactly when its last byte is outside, and then at 0x1000. -/
theorem AnswersCheck.of_storeAtI {i : Instr} {s : State} {bs : List Byte} {n : Nat} (hexec : exec i s = storeAtI i bs s)
    (hlen : bs.length = n + 1) (hi : s.i.toNat ≤ 0x0FFF)
    (hcheck : executeFault i s = if s.i.toNat + n > 0x0FFF then some (.outOfBoundsAccess, 0x1000) else none) :
    AnswersCheck i s (executeFault i s) := by
  obtain ⟨-, hgt, h⟩ | ⟨hle, h⟩ := storeAtI_cases hexec.symm
  · rw [Nat.max_eq_right (by omega)] at h
    exact .of_raise h (by decide) (hcheck.trans (if_pos (by omega)))
  · exact .of_no_fault h rfl rfl (hcheck.trans (if_neg (by omega)))

theorem exec_answersCheck (i : Instr) {s : State} (hsp : s.sp.toNat ≤ 16) (hi : s.i.toNat ≤ 0x0FFF) :
    AnswersCheck i s (executeFault i s) := by
  cases i
  case ret =>
    obtain ⟨h0, h⟩ | ⟨k, hk, h⟩ | ⟨hgt, -⟩ := execRet_cases s
    · exact .of_raise h (by decide) (if_pos (congrArg BitVec.toNat h0))
    · exact .of_no_fault h rfl rfl (if_neg (by omega))
    · omega
  case call nnn =>
    obtain ⟨hlt, h⟩ | ⟨hge, h⟩ := execCall_cases nnn s
    · exact .of_no_fault h rfl rfl (if_neg (by omega))
    · exact .of_raise h (by decide) (if_pos (by omega))
  case addI x =>
    have hx : (s.reg x).toNat < 256 := (s.reg x).isLt
    obtain ⟨hle, h⟩ | ⟨hgt, h⟩ := execAddI_cases x s
    · exact .of_no_fault h rfl rfl (if_neg (by omega))
    · exact .of_raise h (by omega) (if_pos hgt)
  case drw x y n =>
    obtain ⟨hle, h⟩ | ⟨hne, hgt, h⟩ := execDrw_cases x y n s
    · exact .of_no_fault h rfl rfl (if_neg (by omega))
    · rw [Nat.max_eq_right (by omega)] at h
      exact .of_raise h (by decide) (if_pos (by omega))
  case ldRegs x =>
    obtain ⟨hle, h⟩ | ⟨hgt, h⟩ := execLdRegs_cases x s
    · exact .of_no_fault h (State.advance_status _) (State.advance_faultRec _) (if_neg (by omega))
    · rw [Nat.max_eq_right (by omega)] at h
      exact .of_raise h (by decide) (if_pos hgt)
  case ldB x => exact .of_storeAtI (exec_ldB x s) rfl hi rfl
  case stRegs x => exact .of_storeAtI (exec_stRegs x s) (s.length_regsUpTo x) hi rfl
  case ldVxK x =>
    obtain ⟨-, h⟩ | ⟨k, -, h⟩ := execLdVxK_cases x s <;> exact .of_no_fault h rfl rfl rfl
  all_goals exact .of_no_fault rfl rfl rfl rfl

/-- Settles O44: each checking instruction's cases against its row of the table of faults; the others have no check. -/
theorem executeStageFaults : Obligations.ExecuteStageFaults := by
  intro i s hsp hi
  exact exec_answersCheck i hsp hi

end Sys2Proof.Machine
end

section
/-! What an instruction cannot observe (spec/10_state.md R32). -/

namespace Sys2Proof.Machine

/-- Two states that differ in `ST`, `STATUS` and `FAULT` only. -/
def SameObserved (s s' : State) : Prop := s' = { s with st := s'.st, status := s'.status, faultRec := s'.faultRec }

/-- Two outcomes that are both next states and differ in `ST`, `STATUS` and `FAULT` only. -/
def SameObservedNext (o o' : Host.Outcome State Fault Refusal) : Prop :=
  ∃ t t', o = .next t ∧ o' = .next t' ∧ SameObserved t t'

theorem storeAtI_sameObserved (i : Instr) (bs : List Byte) (s : State) (st : Byte) (status : Status)
    (faultRec : FaultRecord) : SameObservedNext (storeAtI i bs s)
      (storeAtI i bs { s with st := st, status := status, faultRec := faultRec }) := by
  unfold storeAtI
  dsimp only
  split <;> exact ⟨_, _, rfl, rfl, rfl⟩

/-- Every check of an instruction reads other fields than these three, so the two executions take the same branch. -/
theorem exec_sameObserved (i : Instr) (s : State) (st : Byte) (status : Status) (faultRec : FaultRecord) :
    SameObservedNext (exec i s) (exec i { s with st := st, status := status, faultRec := faultRec }) := by
  cases i
  case ret =>
    simp only [exec, execRet]
    split
    · exact ⟨_, _, rfl, rfl, rfl⟩
    · split <;> exact ⟨_, _, rfl, rfl, rfl⟩
  case call nnn =>
    obtain ⟨hlt, e⟩ | ⟨hge, e⟩ := execCall_cases nnn s
    · exact ⟨_, _, e, dif_pos hlt, rfl⟩
    · exact ⟨_, _, e, dif_neg (Nat.not_lt_of_le hge), rfl⟩
  case addI x =>
    obtain ⟨hle, e⟩ | ⟨hgt, e⟩ := execAddI_cases x s
    · exact ⟨_, _, e, if_neg (Nat.not_lt_of_le hle), rfl⟩
    · exact ⟨_, _, e, if_pos hgt, rfl⟩
  case drw | ldVxK | ldRegs =>
    simp only [exec, execDrw, execLdVxK, State.keyWait, execLdRegs]
    split <;> exact ⟨_, _, rfl, rfl, rfl⟩
  case ldB x => exact storeAtI_sameObserved _ (bcdDigits (s.reg x)) s st status faultRec
  case stRegs x => exact storeAtI_sameObserved _ (s.regsUpTo x) s st status faultRec
  all_goals exact ⟨_, _, rfl, rfl, rfl⟩

/-- Settles O46: the two outcomes are the given ones. -/
theorem soundTimerStatusFaultUnobserved : Obligations.SoundTimerStatusFaultUnobserved := by
  intro i s t t' st status faultRec h h'
  obtain ⟨u, u', hu, hu', hsame⟩ := exec_sameObserved i s st status faultRec
  obtain rfl := Host.Outcome.next.inj (h.symm.trans hu)
  obtain rfl := Host.Outcome.next.inj (h'.symm.trans hu')
  exact hsame

end Sys2Proof.Machine
end

section
/-! The cycle (spec/40_cycle.md R120 to R131, spec/60_exceptions.md R248 to R252). -/

namespace Sys2Proof.Machine

/-- The self-jump check on the word's numbers: family 1, and the target is the word's own address (R123). -/
theorem isSelfJump_iff {w pc : Word} :
    isSelfJump w pc = true ↔ w.toNat / 0x1000 = 0x1 ∧ w.toNat % 0x1000 = pc.toNat := by
  rw [isSelfJump, Bool.and_eq_true, beq_iff_eq, beq_iff_eq, ← BitVec.toNat_inj, ← BitVec.toNat_inj, famField_toNat,
    zextAddr_toNat, nnnField_toNat]
  rfl

theorem step_of_running {s : State} (h : s.status = .running) : step s = cycleStages s.beginCycle := if_pos h

theorem step_of_not_running {s : State} (h : s.status ≠ .running) : step s = .next s := if_neg h

/-- Everything the step of a Running state can do (R129), said of the state before the cycle. -/
theorem step_cases {s : State} (h : s.status = .running) :
    (s.nextInput.stop = true ∧ step s = .next { s.beginCycle with status := .stopped }) ∨
    (s.nextInput.stop = false ∧ 0xFFE < s.pc.toNat ∧
      step s = .next (s.beginCycle.raise .outOfBoundsAccess 0 (BitVec.ofNat 16 (max s.pc.toNat 0x1000)))) ∨
    ∃ w, s.nextInput.stop = false ∧ Memory.readWord s.mem s.pc.toNat = .ok w ∧
      ((isSelfJump w s.pc = true ∧ step s = .next { s.beginCycle with status := .halted }) ∨
       (isSelfJump w s.pc = false ∧
         ((∃ e, decode w = .error e ∧ step s = .next (s.beginCycle.raise .unknownOpcode w 0)) ∨
          (∃ i, decode w = .ok i ∧ step s = exec i s.beginCycle)))) := by
  rw [step_of_running h]
  simpa only [State.beginCycle_now, State.beginCycle_pc, State.beginCycle_mem] using cycleStages_cases s.beginCycle

/-- The step of a Running state whose fetch answers `w`. -/
theorem step_cases_of_readWord {s : State} {w : Word} (h : s.status = .running) (hstop : s.nextInput.stop = false)
    (hw : Memory.readWord s.mem s.pc.toNat = .ok w) :
    (isSelfJump w s.pc = true ∧ step s = .next { s.beginCycle with status := .halted }) ∨
    (isSelfJump w s.pc = false ∧
      ((∃ e, decode w = .error e ∧ step s = .next (s.beginCycle.raise .unknownOpcode w 0)) ∨
       (∃ i, decode w = .ok i ∧ step s = exec i s.beginCycle))) := by
  obtain ⟨hstop', -⟩ | ⟨-, hpc, -⟩ | ⟨w', -, hw', hrest⟩ := step_cases h
  · exact absurd (hstop.symm.trans hstop') nofun
  · have hle := (Memory.readWord_eq_ok.1 hw).1
    omega
  · obtain rfl := Except.ok.inj (hw'.symm.trans hw)
    exact hrest

/-- Settles O47: a word that is no self-jump and decodes is executed; the boundary changes what `beginCycle_eq` says. -/
theorem stepRunsDecodedInstruction : Obligations.StepRunsDecodedInstruction := by
  refine ⟨fun s w i hrun hstop hw hjump hi => ?_, State.beginCycle_eq⟩
  obtain ⟨hj, -⟩ | ⟨-, ⟨e, he, -⟩ | ⟨j, hj, hstep⟩⟩ := step_cases_of_readWord hrun hstop hw
  · exact absurd (isSelfJump_iff.1 hj) hjump
  · exact absurd (hi.symm.trans he) nofun
  · obtain rfl := Except.ok.inj (hj.symm.trans hi)
    exact hstep

/-- Settles O48: the stop bit is the first thing the stages look at. -/
theorem stopEndsTheCycle : Obligations.StopEndsTheCycle := by
  intro s hrun hstop
  obtain ⟨-, hstep⟩ | ⟨hstop', -⟩ | ⟨_, hstop', -⟩ := step_cases hrun
  · exact hstep
  all_goals exact absurd (hstop.symm.trans hstop') nofun

/-- Settles O49: the lowest address outside is 0x1000 for a fetch that begins at the last byte, and `PC` above it. -/
theorem fetchOutOfBoundsFaults : Obligations.FetchOutOfBoundsFaults := by
  intro s hrun hstop hpc
  have hlt : s.pc.toNat < 0x10000 := s.pc.isLt
  obtain ⟨hstop', -⟩ | ⟨-, -, hstep⟩ | ⟨w, -, hw, -⟩ := step_cases hrun
  · exact absurd (hstop.symm.trans hstop') nofun
  · refine ⟨_, hstep, rfl, rfl, s.beginCycle_pc, rfl, ?_⟩
    rw [State.raise_faultRec, BitVec.toNat_ofNat, Nat.mod_eq_of_lt (by omega)]
    split <;> omega
  · have hle := (Memory.readWord_eq_ok.1 hw).1
    omega

/-- Settles O50: the word passes the self-jump check. -/
theorem selfJumpHalts : Obligations.SelfJumpHalts := by
  intro s w hrun hstop hw hfam htarget
  have hjump : isSelfJump w s.pc = true := isSelfJump_iff.2 ⟨hfam, htarget⟩
  obtain ⟨-, hstep⟩ | ⟨hj, -⟩ := step_cases_of_readWord hrun hstop hw
  · exact hstep
  · exact absurd (hjump.symm.trans hj) nofun

theorem decode_of_family_one {w : Word} (h : w.toNat / 0x1000 = 0x1) : decode w = .ok (.jp (nnnField w)) := by
  simp [decode, famField_toNat, h]

/-- Settles O52: a word that no row matches is not decoded, so it is no self-jump and the dispatch refuses it. -/
theorem unknownOpcodeFaults : Obligations.UnknownOpcodeFaults := by
  intro s w hrun hstop hw hill
  have hno : ∀ i, decode w ≠ .ok i := fun i hi => absurd (hill.symm.trans (wellFormedWord_iff.2 ⟨i, hi⟩)) nofun
  obtain ⟨hj, -⟩ | ⟨-, ⟨e, -, hstep⟩ | ⟨i, hi, -⟩⟩ := step_cases_of_readWord hrun hstop hw
  · exact absurd (decode_of_family_one (isSelfJump_iff.1 hj).1) (hno _)
  · exact ⟨_, hstep, rfl, rfl, s.beginCycle_pc, rfl, rfl⟩
  · exact absurd hi (hno i)

/-! ### The status after a step -/

/-- An execution neither halts nor stops the engine: it faults, or leaves the status as it is. -/
theorem status_of_exec {i : Instr} {s t : State} (h : exec i s = .next t) : t.status = .faulted ∨ t.status = s.status := by
  obtain ⟨_, _, rfl, -⟩ | hc := faults_or_completes_of_exec h
  · exact .inl rfl
  · exact .inr hc.status

/-- Settles O51: of what a step can do, only the self-jump leaves the engine Halted. -/
theorem onlySelfJumpHalts : Obligations.OnlySelfJumpHalts := by
  intro s t hrun hstep hhalt
  obtain ⟨-, e⟩ | ⟨-, -, e⟩ | ⟨w, hstop, hw, ⟨hj, -⟩ | ⟨-, ⟨_, -, e⟩ | ⟨i, -, e⟩⟩⟩ := step_cases hrun
  case inr.inr.inl => exact ⟨hstop, w, hw, isSelfJump_iff.1 hj⟩
  case inr.inr.inr.inr =>
    have hrun' : s.beginCycle.status = .running := s.beginCycle_status.trans hrun
    obtain hf | hs := status_of_exec (e.symm.trans hstep)
    · exact absurd (hf.symm.trans hhalt) nofun
    · exact absurd (hrun'.symm.trans (hs.symm.trans hhalt)) nofun
  all_goals
    obtain rfl := Host.Outcome.next.inj (hstep.symm.trans e)
    exact absurd hhalt nofun

/-- Settles O53: the three sources of a fault are each a `raise` at the start of the cycle. -/
theorem faultsArePrecise : Obligations.FaultsArePrecise := by
  intro s t hrun hstep hfault
  obtain ⟨-, e⟩ | ⟨-, -, e⟩ | ⟨w, -, -, ⟨-, e⟩ | ⟨-, ⟨_, -, e⟩ | ⟨i, -, e⟩⟩⟩ := step_cases hrun
  case inr.inr.inr.inr =>
    obtain ⟨_, _, rfl, hcause⟩ | hc := faults_or_completes_of_exec (e.symm.trans hstep)
    · exact ⟨rfl, hcause, s.beginCycle_pc⟩
    · have hrun' : s.beginCycle.status = .running := s.beginCycle_status.trans hrun
      exact absurd (hrun'.symm.trans (hc.status.symm.trans hfault)) nofun
  all_goals obtain rfl := Host.Outcome.next.inj (hstep.symm.trans e)
  case inl | inr.inr.inl => exact absurd hfault nofun
  case inr.inl | inr.inr.inr.inl => exact ⟨rfl, nofun, s.beginCycle_pc⟩

/-- A run begins with a step (of any machine behind the host's interface). -/
theorem run_succ_of_step {M : Host.Core} {s s' : M.State} (h : M.step s = .next s') (k : Nat) :
    M.run (k + 1) s = M.run k s' := by
  rw [Host.Core.run, h]

theorem run_of_not_running {s : State} (h : s.status ≠ .running) (k : Nat) : Host.Core.run core k s = .next s := by
  induction k with
  | zero => rfl
  | succ k ih => exact (run_succ_of_step (M := core) (step_of_not_running h) k).trans ih

/-- Settles O54: a step and a tick outside Running answer the same state, so any number of them does. -/
theorem finalStatesAreFrozen : Obligations.FinalStatesAreFrozen :=
  fun _ k h => ⟨run_of_not_running h k, State.ticks_of_not_running h k⟩

end Sys2Proof.Machine
end

section
/-! The invariant (spec/10_state.md R42): what a step does to `PC`, the stack and `I`, and the parts put together. -/

namespace Sys2Proof.Machine

/-! ### What an execution does to the bounded registers -/

/-- The largest target is that of JP V0; no sum wraps from a `PC` that can be fetched from. -/
theorem NextPc.toNat_le {s : State} {p : Word} (h : NextPc s p) (hpc : s.pc.toNat ≤ 0x0FFE)
    (hstack : ∀ k : Fin 16, k.val < s.sp.toNat → s.stack[k].toNat ≤ 0x1000) : p.toNat ≤ 0x10FE := by
  cases h
  case stay => omega
  case advance | skip => bv_omega
  case jump nnn =>
    have hlt : nnn.toNat < 4096 := nnn.isLt
    rw [zextAddr_toNat]
    omega
  case jumpV0 nnn =>
    have hlt : nnn.toNat < 4096 := nnn.isLt
    have hreg : (s.reg 0).toNat < 256 := (s.reg 0).isLt
    rw [zextAddr_add_zextByte_toNat]
    omega
  case ret k hk => exact (hstack k hk).trans (by decide)

/-- The stack after an execution: RET and CALL move `SP` by one, and CALL pushes an address up to 0x1000. -/
theorem stack_bounded_of_exec {i : Instr} {s t : State} (h : exec i s = .next t) (hpc : s.pc.toNat ≤ 0x0FFE)
    (hsp : s.sp.toNat ≤ 16) (hstack : ∀ k : Fin 16, k.val < s.sp.toNat → s.stack[k].toNat ≤ 0x1000) :
    t.sp.toNat ≤ 16 ∧ ∀ k : Fin 16, k.val < t.sp.toNat → t.stack[k].toNat ≤ 0x1000 := by
  by_cases hret : i = .ret
  · subst hret
    obtain ⟨-, e⟩ | ⟨j, hj, e⟩ | ⟨-, e⟩ := execRet_cases s <;> obtain rfl := Host.Outcome.next.inj (h.symm.trans e)
    · exact ⟨hsp, hstack⟩
    · have hpop : (s.sp - 1).toNat = j.val := by bv_omega
      simp only [hpop]
      exact ⟨by omega, fun k hk => hstack k (by omega)⟩
    · exact ⟨hsp, hstack⟩
  by_cases hcall : ∃ nnn, i = .call nnn
  · obtain ⟨nnn, rfl⟩ := hcall
    obtain ⟨hlt, e⟩ | ⟨-, e⟩ := execCall_cases nnn s <;> obtain rfl := Host.Outcome.next.inj (h.symm.trans e)
    · have hpush : (s.sp + 1).toNat = s.sp.toNat + 1 := by bv_omega
      simp only [hpush, Fin.getElem_fin, Vector.getElem_set]
      refine ⟨by omega, fun k hk => ?_⟩
      split
      · bv_omega
      · exact hstack k (by omega)
    · exact ⟨hsp, hstack⟩
  · obtain ⟨-, hkeepSp, hkeepStack, -⟩ := specialRegistersFrame i s t h
    have hcall : ∀ nnn, i ≠ .call nnn := not_exists.1 hcall
    rw [hkeepSp hret hcall, hkeepStack hcall]
    exact ⟨hsp, hstack⟩

/-- `I` after an execution: a 12-bit constant, a checked sum or a glyph address (R23). -/
theorem index_bounded_of_exec {i : Instr} {s t : State} (h : exec i s = .next t) (hi : s.i.toNat ≤ 0x0FFF) :
    t.i.toNat ≤ 0x0FFF := by
  cases hw : writesIndex i with
  | false =>
    obtain ⟨hkeep, -⟩ := specialRegistersFrame i s t h
    rw [hkeep hw]
    exact hi
  | true =>
    cases i
    case ldI nnn =>
      have hlt : nnn.toNat < 4096 := nnn.isLt
      obtain rfl := Host.Outcome.next.inj h
      rw [State.advance_i, zextAddr_toNat]
      omega
    case addI x =>
      obtain ⟨hle, e⟩ | ⟨-, e⟩ := execAddI_cases x s <;> obtain rfl := Host.Outcome.next.inj (h.symm.trans e)
      · rw [State.advance_i, BitVec.toNat_ofNat]
        exact (Nat.mod_le ..).trans hle
      · exact hi
    case ldF x =>
      have hlt : (s.reg x).toNat < 256 := (s.reg x).isLt
      obtain rfl := Host.Outcome.next.inj h
      rw [State.advance_i, glyphAddress_toNat]
      omega
    all_goals exact absurd hw nofun

/-! ### The invariant through the stages of a cycle -/

theorem State.Inv.beginCycle {s : State} (h : s.Inv) : s.beginCycle.Inv := by
  simpa only [State.Inv, State.beginCycle_sp, State.beginCycle_i, State.beginCycle_pc, State.beginCycle_stack,
    State.beginCycle_faultRec, State.beginCycle_status, State.beginCycle_mem] using h

/-- Halting or stopping a Running state leaves the fault record clear. -/
theorem State.Inv.withStatus {s : State} (h : s.Inv) (hrun : s.status = .running) {status : Status}
    (hs : status ≠ .faulted) : ({ s with status := status } : State).Inv := by
  obtain ⟨hsp, hi, hpc, hstack, hfault, hmem⟩ := h
  have hclear : s.faultRec.cause = .none := hfault.2 (hrun ▸ nofun)
  exact ⟨hsp, hi, hpc, hstack, iff_of_true hclear hs, hmem⟩

theorem State.Inv.raise {s : State} (h : s.Inv) {cause : Cause} (hcause : cause ≠ .none) (w a : Word) :
    (s.raise cause w a).Inv := by
  obtain ⟨hsp, hi, hpc, hstack, -, hmem⟩ := h
  exact ⟨hsp, hi, hpc, hstack, iff_of_false hcause (not_not_intro rfl), hmem⟩

/-- The execute stage keeps the invariant from a `PC` that the word was fetched from. -/
theorem State.Inv.of_exec {i : Instr} {s t : State} (h : s.Inv) (hpc : s.pc.toNat ≤ 0x0FFE) (he : exec i s = .next t) :
    t.Inv := by
  obtain ⟨_, _, rfl, hcause⟩ | hc := faults_or_completes_of_exec he
  · exact h.raise hcause _ _
  · obtain ⟨hsp, hi, -, hstack, hfault, hmem⟩ := h
    obtain ⟨hsp', hstack'⟩ := stack_bounded_of_exec he hpc hsp hstack
    refine ⟨hsp', index_bounded_of_exec he hi, hc.pc.toNat_le hpc hstack, hstack', ?_, hc.mem_wf hmem⟩
    rw [hc.faultRec, hc.status]
    exact hfault

/-- Settles O55: outside Running the state stays; from Running each thing a step can do keeps the invariant. -/
theorem stepKeepsInvariant : Obligations.StepKeepsInvariant := by
  intro s t hinv hstep
  by_cases hrun : s.status = .running
  case neg =>
    obtain rfl := Host.Outcome.next.inj ((step_of_not_running hrun).symm.trans hstep)
    exact hinv
  have hbegin := hinv.beginCycle
  have hrun' : s.beginCycle.status = .running := s.beginCycle_status.trans hrun
  obtain ⟨-, e⟩ | ⟨-, -, e⟩ | ⟨w, -, hw, ⟨-, e⟩ | ⟨-, ⟨_, -, e⟩ | ⟨i, -, e⟩⟩⟩ := step_cases hrun
  case inr.inr.inr.inr =>
    have hfetch := (Memory.readWord_eq_ok.1 hw).1
    exact hbegin.of_exec (by rwa [State.beginCycle_pc]) (e.symm.trans hstep)
  all_goals obtain rfl := Host.Outcome.next.inj (hstep.symm.trans e)
  case inl | inr.inr.inl => exact hbegin.withStatus hrun' nofun
  case inr.inl | inr.inr.inr.inl => exact hbegin.raise (by decide) _ _

end Sys2Proof.Machine
end

section
/-! The launch (spec/10_state.md R34, R35, spec/70_reset_and_hazards.md R280) and the states it leads to (R42, R131). -/

namespace Sys2Proof.Machine

theorem State.launch_of_length_le (font : Vector Byte 80) {rom : List Byte} (h : rom.length ≤ 3584) :
    State.launch font rom = .next { State.reset with mem := launchMemory font rom } := if_pos h

/-! ### The launch's memory -/

theorem wf_fontMemory (font : Vector Byte 80) : Memory.wf (Memory.setBytes [] 0 font.toList) = true :=
  Memory.wf_setBytes rfl (by simp)

theorem wf_launchMemory (font : Vector Byte 80) {rom : List Byte} (h : rom.length ≤ 3584) :
    Memory.wf (launchMemory font rom) = true :=
  Memory.wf_setBytes (wf_fontMemory font) (by omega)

theorem get_launchMemory_rom (font : Vector Byte 80) {rom : List Byte} (h : rom.length ≤ 3584) (k : Fin rom.length) :
    Memory.get (launchMemory font rom) (0x200 + k.val) = rom[k] :=
  Memory.get_setBytes_inside (wf_fontMemory font) k.isLt (by omega)

theorem get_launchMemory_font (font : Vector Byte 80) (rom : List Byte) (a : Fin 80) :
    Memory.get (launchMemory font rom) a.val = font[a] := by
  have hinside := Memory.get_setBytes_inside (m := []) rfl (a := 0) (k := a.val) (bs := font.toList) (by simp) (by simp)
  rw [Nat.zero_add] at hinside
  rw [launchMemory, Memory.get_setBytes_outside _ (by omega), hinside]
  simp

/-- An address in neither copy is 0. -/
theorem get_launchMemory_zero (font : Vector Byte 80) (rom : List Byte) {a : Nat} (hfont : 80 ≤ a)
    (hrom : a < 0x200 ∨ 0x200 + rom.length ≤ a) : Memory.get (launchMemory font rom) a = 0 := by
  rw [launchMemory, Memory.get_setBytes_outside _ hrom, Memory.get_setBytes_outside _ (.inr (by simpa using hfont))]
  exact dif_neg (by omega)

/-- Settles O1: every field is that of the reset state but memory, which holds the two copies. -/
theorem launchGivesResetValues : Obligations.LaunchGivesResetValues := by
  intro font rom hlen
  refine ⟨_, State.launch_of_length_le font hlen, ?regs, rfl, rfl, rfl, ?stack, rfl, rfl, get_launchMemory_font font rom,
    fun a h80 h => get_launchMemory_zero font rom h80 (.inl h), get_launchMemory_rom font hlen,
    fun a h _ => get_launchMemory_zero font rom (by omega) (.inr h), Frame.pixel_clear, rfl, rfl, rfl, rfl, rfl, rfl⟩
  case regs => exact fun r => by simp [State.reg, State.reset]
  case stack => exact fun k => by simp [State.reset]

/-! ### The invariant along a run -/

/-- The reset values meet the invariant with any memory in canonical form. -/
theorem State.Inv.reset {m : Memory} (hm : Memory.wf m = true) : ({ State.reset with mem := m } : State).Inv :=
  ⟨(by decide : (0 : Byte).toNat ≤ 16), (by decide : (0 : Word).toNat ≤ 0x0FFF),
    (by decide : (0x200 : Word).toNat ≤ 0x10FE), fun _ h => absurd h (Nat.not_lt_zero _), iff_of_true rfl nofun, hm⟩

/-- Settles O3: the empty memory is in canonical form. -/
theorem resetMeetsInvariant : Obligations.ResetMeetsInvariant := State.Inv.reset (m := []) rfl

theorem inv_of_launch {font : Vector Byte 80} {rom : List Byte} {s : State} (h : State.launch font rom = .next s) : s.Inv := by
  by_cases hlen : rom.length ≤ 3584
  · obtain rfl := Host.Outcome.next.inj ((State.launch_of_length_le font hlen).symm.trans h)
    exact .reset (wf_launchMemory font hlen)
  · exact absurd ((State.launch_of_length_gt font (Nat.lt_of_not_le hlen)).symm.trans h) nofun

/-- Settles O56: a launch meets the invariant, the inputs are no part of it, and a step keeps it. -/
theorem reachableStatesMeetInvariant : Obligations.ReachableStatesMeetInvariant := by
  intro s h
  induction h with
  | launch font rom s hlaunch => exact inv_of_launch hlaunch
  | schedule s inputs _ ih => exact ih
  | step s t _ hstep ih => exact stepKeepsInvariant s t ih hstep

end Sys2Proof.Machine
end
